-- ==== Sys2Proof/Word.lean ====
section
/-! DEFINITION. The word types of the spec (00_scope.md rule R10). -/

namespace Sys2Proof

/-- A byte, rule R10. -/
abbrev Byte := BitVec 8

/-- The address field of a frame, rule R310. -/
abbrev Addr24 := BitVec 24

/-- A 32-bit command operand, rule R331. -/
abbrev Word32 := BitVec 32

end Sys2Proof
end

