-- ==== Sys2Proof/Config.lean ====
section
/-! DEFINITION. What one implementation fixes: the constants of 00_scope.md rule R8, the parameters of rules R8 and R230
as one record that State carries, and the free values. -/

namespace Sys2Proof

/-- `ADDR_LIMIT`, rule R8: valid byte addresses are 0 to 0x1FFFF. -/
abbrev addrLimit : Nat := 0x20000

/-- `PAGE_SIZE`, rule R8. -/
abbrev pageSize : Nat := 256

/-- `NUM_PAGES`, rule R8. -/
abbrev numPages : Nat := 512

/-- `SECTOR_SIZE`, rule R8. -/
abbrev sectorSize : Nat := 32768

/-- `NUM_SECTORS`, rule R8. -/
abbrev numSectors : Nat := 4

/-- `DEV_SRWD_MODE`, rule R230: how SRWD gates a status write. -/
inductive SrwdMode where
  | withWp
  | always
  | ignore
  deriving DecidableEq, Repr

/-- The parameters of the block (rule R8) and of the reference device (rule R230). No step changes them. -/
structure Params where
  /-- `HAS_CONTROL_LINES` -/
  hasControlLines : Bool
  /-- `EXPECTED_SIGNATURE` -/
  expectedSignature : Byte
  /-- `FILL_BYTE` -/
  fillByte : Byte
  /-- `RDID_DUMMY` -/
  rdidDummy : Byte
  /-- `ERASE_RANGE_CHECK` -/
  eraseRangeCheck : Bool
  /-- `POLL_LIMIT`; none is the unbounded poll -/
  pollLimit : Option Nat
  /-- `POLL_INTERVAL`, in milliseconds (log 1): timing only, no rule depends on it (rule R932) -/
  pollIntervalMs : Nat
  /-- `CLOCK_HZ`: timing only, no rule depends on it (rule R930) -/
  clockHz : Nat
  /-- `DEV_ID` -/
  devId : Byte
  /-- `DEV_WEL_AUTOCLEAR` -/
  devWelAutoclear : Bool
  /-- `DEV_WRSR_IS_WRITE` -/
  devWrsrIsWrite : Bool
  /-- `DEV_SRWD_MODE` -/
  devSrwdMode : SrwdMode
  /-- `DEV_WP_PIN` -/
  devWpPin : Bool
  /-- `ERASED_BYTE` -/
  erasedByte : Byte
  /-- `DEV_ERASE_HONOURS_BP` -/
  devEraseHonoursBp : Bool
  deriving DecidableEq, Repr

/-- The spec's defaults. The values the spec leaves without a default are the model's (assumption log 1): control lines
present, identity 0x29 on both sides, the clock, and the poll interval, of which the spec gives 10 ms as an example only. -/
def Params.default : Params where
  hasControlLines := true
  expectedSignature := 0x29#8
  fillByte := 0x00#8
  rdidDummy := 0x00#8
  eraseRangeCheck := false
  pollLimit := none
  pollIntervalMs := 10
  clockHz := 2000000
  devId := 0x29#8
  devWelAutoclear := true
  devWrsrIsWrite := true
  devSrwdMode := .withWp
  devWpPin := true
  erasedByte := 0xFF#8
  devEraseHonoursBp := true

/-- What an array byte that State does not list reads as: DESIGN CHOICE, assumption log 5. -/
abbrev blankByte : Byte := 0xFF#8

/-- Free value (rule R234, decision D45; log 7): byte `i` received in the transaction numbered by the counter, where no
rule names it. -/
opaque Config.draw : Nat → Nat → Byte

/-- Free value (rules R102, R105, R140; log 8): an unspecified byte register. -/
opaque Config.freeByte : Nat → Nat → Byte

/-- Free value (rules R102, R140; log 8): an unspecified counter or address register. -/
opaque Config.freeNat : Nat → Nat → Nat

/-- Free value (rules R105, R140; log 8): an unspecified byte list. -/
opaque Config.freeBytes : Nat → Nat → List Byte

/-- Free value (rule R240, decision D30; log 11): whether DevComplete fires before the block's next step. -/
opaque Config.deviceMoves : Nat → Bool

end Sys2Proof
end

