-- ==== Sys2Proof/Syntax.lean ====
section
/-! DEFINITION. Every row of spec/opcode_table.json as a constructor of Instr, and the command registers a host offers. -/

namespace Sys2Proof

/-- An instruction of either space of the opcode table. `spi…` is an SPI instruction (rules R300, R401 to R411);
`cmd…` is a host command (rule R330). READ and WRITE name a row in each space. -/
inductive Instr where
  /-- READ, rule R401: address and number of fill bytes. -/
  | spiRead (addr : Addr24) (n : Nat)
  /-- WRITE, rule R402: address and payload. -/
  | spiWrite (addr : Addr24) (data : List Byte)
  | spiWren
  | spiWrdi
  | spiRdsr
  /-- WRSR, rule R406: the status byte. -/
  | spiWrsr (v : Byte)
  | spiPe (addr : Addr24)
  | spiSe (addr : Addr24)
  | spiCe
  | spiRdid
  | spiDpd
  | cmdInit
  /-- READ, rule R510: `CMD_ADDR`, `CMD_LEN`. -/
  | cmdRead (addr : Word32) (len : Word32)
  /-- WRITE, rule R520: `CMD_ADDR`, `CMD_DATA`. -/
  | cmdWrite (addr : Word32) (data : List Byte)
  | cmdReadStatus
  | cmdWriteStatus (arg : Byte)
  | cmdGetWel
  | cmdSetWel (arg : Byte)
  | cmdGetWip
  | cmdGetBp
  | cmdSetBp (arg : Byte)
  | cmdGetSrwd
  | cmdSetSrwd (arg : Byte)
  | cmdErasePage (addr : Word32)
  | cmdEraseSector (addr : Word32)
  | cmdEraseChip
  | cmdDeepPowerDown
  | cmdWake
  /-- A `CMD_OP` of 0x11 to 0x1F, rule R332. -/
  | cmdReserved (op : BitVec 5)
  deriving DecidableEq, Repr

/-- The command registers, rule R104. -/
structure CommandRegs where
  /-- `CMD_OP` -/
  op : BitVec 5
  /-- `CMD_ADDR`, two's complement -/
  addr : Word32
  /-- `CMD_LEN`, unsigned -/
  len : Word32
  /-- `CMD_ARG` -/
  arg : Byte
  /-- `CMD_DATA` -/
  data : List Byte
  deriving DecidableEq, Repr

/-- The words of an instruction: a frame on the transaction port (rule R301) or a command on the command port (rule R330). -/
inductive Words where
  | frame (tx : List Byte)
  | command (r : CommandRegs)
  deriving DecidableEq, Repr

end Sys2Proof
end

