-- ==== Sys2Proof/WellFormed.lean ====
section
/-! DEFINITION. The operand shapes the encodings admit: rule R301 for frames, rules R104 and R332 for commands. -/

namespace Sys2Proof

/-- Whether an instruction has an encoding: a WRITE frame carries 1 to 256 payload bytes (rule R301), a WRITE command a
payload whose length `CMD_LEN` can hold (rule R104), a reserved code is 0x11 to 0x1F (rule R332). -/
def wellFormed : Instr → Bool
  | .spiRead _ _ => true
  | .spiWrite _ data => decide (1 ≤ data.length) && decide (data.length ≤ 256)
  | .spiWren => true
  | .spiWrdi => true
  | .spiRdsr => true
  | .spiWrsr _ => true
  | .spiPe _ => true
  | .spiSe _ => true
  | .spiCe => true
  | .spiRdid => true
  | .spiDpd => true
  | .cmdInit => true
  | .cmdRead _ _ => true
  | .cmdWrite _ data => decide (data.length < 2 ^ 32)
  | .cmdReadStatus => true
  | .cmdWriteStatus _ => true
  | .cmdGetWel => true
  | .cmdSetWel _ => true
  | .cmdGetWip => true
  | .cmdGetBp => true
  | .cmdSetBp _ => true
  | .cmdGetSrwd => true
  | .cmdSetSrwd _ => true
  | .cmdErasePage _ => true
  | .cmdEraseSector _ => true
  | .cmdEraseChip => true
  | .cmdDeepPowerDown => true
  | .cmdWake => true
  | .cmdReserved op => decide (0x11 ≤ op.toNat)

/-- Whether an instruction is one of the SPI space (rule R300). -/
def isSpi : Instr → Bool
  | .spiRead _ _ => true
  | .spiWrite _ _ => true
  | .spiWren => true
  | .spiWrdi => true
  | .spiRdsr => true
  | .spiWrsr _ => true
  | .spiPe _ => true
  | .spiSe _ => true
  | .spiCe => true
  | .spiRdid => true
  | .spiDpd => true
  | .cmdInit => false
  | .cmdRead _ _ => false
  | .cmdWrite _ _ => false
  | .cmdReadStatus => false
  | .cmdWriteStatus _ => false
  | .cmdGetWel => false
  | .cmdSetWel _ => false
  | .cmdGetWip => false
  | .cmdGetBp => false
  | .cmdSetBp _ => false
  | .cmdGetSrwd => false
  | .cmdSetSrwd _ => false
  | .cmdErasePage _ => false
  | .cmdEraseSector _ => false
  | .cmdEraseChip => false
  | .cmdDeepPowerDown => false
  | .cmdWake => false
  | .cmdReserved _ => false

end Sys2Proof
end

