-- ==== Sys2Proof/Decode.lean ====
section
/-! DEFINITION. Decoding of frames (rules R300, R301, R312, R320) and of commands (rules R330 to R334), then the encoder
(40_encoder.md), and the opcode table's view of a word. -/

namespace Sys2Proof

/-- Why a byte list is no frame of rule R301. -/
inductive DecodeError where
  /-- no byte in the frame -/
  | emptyFrame
  /-- a first byte outside the eleven of rule R300 -/
  | unknownOpcode (b : Byte)
  /-- a length that the opcode's format of rule R301 does not have -/
  | badLength (b : Byte) (len : Nat)
  deriving DecidableEq, Repr

/-- `enc24`, rule R310: most significant byte first. -/
def enc24 (a : Addr24) : List Byte :=
  [a.extractLsb' 16 8, a.extractLsb' 8 8, a.extractLsb' 0 8]

/-- `enc24⁻¹`, rule R310. -/
def dec24 (b2 b1 b0 : Byte) : Addr24 :=
  b2 ++ b1 ++ b0

/-- The operands of a frame whose format is an opcode alone. -/
def decodeOp (op : Byte) (i : Instr) : List Byte → Except DecodeError Instr
  | [] => .ok i
  | rest => .error (.badLength op (rest.length + 1))

/-- The operands of format `OP_A24`. -/
def decodeAddr (op : Byte) (i : Addr24 → Instr) : List Byte → Except DecodeError Instr
  | [b2, b1, b0] => .ok (i (dec24 b2 b1 b0))
  | rest => .error (.badLength op (rest.length + 1))

/-- The operands of format `OP_A24_RD`: the length is the number of bytes after the address (rule R311). -/
def decodeRead (op : Byte) : List Byte → Except DecodeError Instr
  | b2 :: b1 :: b0 :: fill => .ok (.spiRead (dec24 b2 b1 b0) fill.length)
  | rest => .error (.badLength op (rest.length + 1))

/-- The operands of format `OP_A24_WR`: 1 to 256 payload bytes. -/
def decodeWrite (op : Byte) : List Byte → Except DecodeError Instr
  | b2 :: b1 :: b0 :: data =>
    if 1 ≤ data.length ∧ data.length ≤ 256 then .ok (.spiWrite (dec24 b2 b1 b0) data)
    else .error (.badLength op (data.length + 4))
  | rest => .error (.badLength op (rest.length + 1))

/-- The operands of formats `OP_RD1` and `OP_WR1`. -/
def decodeByte (op : Byte) (i : Byte → Instr) : List Byte → Except DecodeError Instr
  | [v] => .ok (i v)
  | rest => .error (.badLength op (rest.length + 1))

/-- The operands of format `OP_D3_RD1`. -/
def decodeRdid (op : Byte) : List Byte → Except DecodeError Instr
  | [_, _, _, _] => .ok .spiRdid
  | rest => .error (.badLength op (rest.length + 1))

/-- Decode a frame, total: the instruction from `tx[0]`, its length from the frame (rules R300, R312). The values of
fill and dummy bytes do not matter (rule R248; 93 item "Fill and dummy bytes"; log 9). -/
def decodeFrame : List Byte → Except DecodeError Instr
  | [] => .error .emptyFrame
  | op :: rest =>
    if op = 0x03#8 then decodeRead op rest
    else if op = 0x02#8 then decodeWrite op rest
    else if op = 0x06#8 then decodeOp op .spiWren rest
    else if op = 0x04#8 then decodeOp op .spiWrdi rest
    else if op = 0x05#8 then decodeByte op (fun _ => .spiRdsr) rest
    else if op = 0x01#8 then decodeByte op .spiWrsr rest
    else if op = 0x42#8 then decodeAddr op .spiPe rest
    else if op = 0xD8#8 then decodeAddr op .spiSe rest
    else if op = 0xC7#8 then decodeOp op .spiCe rest
    else if op = 0xAB#8 then decodeRdid op rest
    else if op = 0xB9#8 then decodeOp op .spiDpd rest
    else .error (.unknownOpcode op)

/-- Decode a command, total (rule R334): the code of rule R330, with the operands the command uses; 0x11 to 0x1F are
reserved (rule R332). -/
def decodeCommand (r : CommandRegs) : Instr :=
  match r.op.toNat with
  | 0x00 => .cmdInit
  | 0x01 => .cmdRead r.addr r.len
  | 0x02 => .cmdWrite r.addr r.data
  | 0x03 => .cmdReadStatus
  | 0x04 => .cmdWriteStatus r.arg
  | 0x05 => .cmdGetWel
  | 0x06 => .cmdSetWel r.arg
  | 0x07 => .cmdGetWip
  | 0x08 => .cmdGetBp
  | 0x09 => .cmdSetBp r.arg
  | 0x0A => .cmdGetSrwd
  | 0x0B => .cmdSetSrwd r.arg
  | 0x0C => .cmdErasePage r.addr
  | 0x0D => .cmdEraseSector r.addr
  | 0x0E => .cmdEraseChip
  | 0x0F => .cmdDeepPowerDown
  | 0x10 => .cmdWake
  | _ => .cmdReserved r.op

/-- Decode the words of either space. -/
def decode : Words → Except DecodeError Instr
  | .frame tx => decodeFrame tx
  | .command r => .ok (decodeCommand r)

/-! The encoder. -/

/-- `E_READ`, rule R401. -/
def encRead (p : Params) (a : Addr24) (n : Nat) : List Byte :=
  0x03#8 :: (enc24 a ++ List.replicate n p.fillByte)

/-- `E_WRITE`, rule R402. -/
def encWrite (a : Addr24) (d : List Byte) : List Byte :=
  0x02#8 :: (enc24 a ++ d)

/-- `E_WREN`, rule R403. -/
def encWren : List Byte := [0x06#8]

/-- `E_WRDI`, rule R404. -/
def encWrdi : List Byte := [0x04#8]

/-- `E_RDSR`, rule R405. -/
def encRdsr (p : Params) : List Byte := [0x05#8, p.fillByte]

/-- `E_WRSR`, rule R406. -/
def encWrsr (v : Byte) : List Byte := [0x01#8, v]

/-- `E_PE`, rule R407. -/
def encPe (a : Addr24) : List Byte := 0x42#8 :: enc24 a

/-- `E_SE`, rule R408. -/
def encSe (a : Addr24) : List Byte := 0xD8#8 :: enc24 a

/-- `E_CE`, rule R409. -/
def encCe : List Byte := [0xC7#8]

/-- `E_RDID`, rule R410. -/
def encRdid (p : Params) : List Byte := [0xAB#8, p.rdidDummy, p.rdidDummy, p.rdidDummy, p.fillByte]

/-- `E_DPD`, rule R411. -/
def encDpd : List Byte := [0xB9#8]

/-- The command registers of a code and its operands; the operands a command does not use are zero here. -/
def commandRegs (op : BitVec 5) (addr : Word32 := 0) (len : Word32 := 0) (arg : Byte := 0) (data : List Byte := []) :
    CommandRegs where
  op := op
  addr := addr
  len := len
  arg := arg
  data := data

/-- The words of an instruction: its frame (40_encoder.md) or its command registers (rules R330, R331; decision D43 for
the length of a WRITE). -/
def encode (p : Params) : Instr → Words
  | .spiRead a n => .frame (encRead p a n)
  | .spiWrite a d => .frame (encWrite a d)
  | .spiWren => .frame encWren
  | .spiWrdi => .frame encWrdi
  | .spiRdsr => .frame (encRdsr p)
  | .spiWrsr v => .frame (encWrsr v)
  | .spiPe a => .frame (encPe a)
  | .spiSe a => .frame (encSe a)
  | .spiCe => .frame encCe
  | .spiRdid => .frame (encRdid p)
  | .spiDpd => .frame encDpd
  | .cmdInit => .command (commandRegs 0x00#5)
  | .cmdRead a n => .command (commandRegs 0x01#5 (addr := a) (len := n))
  | .cmdWrite a d => .command (commandRegs 0x02#5 (addr := a) (len := BitVec.ofNat 32 d.length) (data := d))
  | .cmdReadStatus => .command (commandRegs 0x03#5)
  | .cmdWriteStatus v => .command (commandRegs 0x04#5 (arg := v))
  | .cmdGetWel => .command (commandRegs 0x05#5)
  | .cmdSetWel v => .command (commandRegs 0x06#5 (arg := v))
  | .cmdGetWip => .command (commandRegs 0x07#5)
  | .cmdGetBp => .command (commandRegs 0x08#5)
  | .cmdSetBp v => .command (commandRegs 0x09#5 (arg := v))
  | .cmdGetSrwd => .command (commandRegs 0x0A#5)
  | .cmdSetSrwd v => .command (commandRegs 0x0B#5 (arg := v))
  | .cmdErasePage a => .command (commandRegs 0x0C#5 (addr := a))
  | .cmdEraseSector a => .command (commandRegs 0x0D#5 (addr := a))
  | .cmdEraseChip => .command (commandRegs 0x0E#5)
  | .cmdDeepPowerDown => .command (commandRegs 0x0F#5)
  | .cmdWake => .command (commandRegs 0x10#5)
  | .cmdReserved op => .command (commandRegs op)

/-! The opcode table's view. -/

/-- The shortest frame of an opcode in rule R301's formats; none for a byte outside rule R300. -/
def minFrameLength (op : Byte) : Option Nat :=
  if op = 0x03#8 then some 4
  else if op = 0x02#8 then some 5
  else if op = 0x05#8 ∨ op = 0x01#8 then some 2
  else if op = 0x42#8 ∨ op = 0xD8#8 then some 4
  else if op = 0xAB#8 then some 5
  else if op = 0x06#8 ∨ op = 0x04#8 ∨ op = 0xC7#8 ∨ op = 0xB9#8 then some 1
  else none

/-- The low `nbits` bits of `w` as bytes, the first the least significant. -/
def tableBytes (nbits w : Nat) : List Byte :=
  (List.range (nbits / 8)).map fun j => BitVec.ofNat 8 (w >>> (8 * j))

/-- The words of a table row. Both spaces of the table begin at bit 0, so a word of whole bytes whose first byte is one
of the eleven of rule R300 is an SPI frame, made up with zero bytes to its format's shortest length; any other word
below 32 is a command code with zero operands (log 10). -/
def tableWords (nbits w : Nat) : Option Words :=
  let bytes := tableBytes nbits w
  match bytes.head?.bind minFrameLength with
  | some len => some (.frame (bytes ++ List.replicate (len - bytes.length) 0))
  | none => if w < 32 then some (.command (commandRegs (BitVec.ofNat 5 w))) else none

/-- The instruction the decoder reads from a row of spec/opcode_table.json. -/
def decodeTableWord (nbits w : Nat) : Option Instr :=
  match tableWords nbits w with
  | none => none
  | some x =>
    match decode x with
    | .ok i => some i
    | .error _ => none

end Sys2Proof
end

