-- ==== Sys2Proof/Machine/State.lean ====
section
/-! DEFINITION. The state of the block (10_state.md) and of the reference device (20_memory.md rule R232), the reasons a
step can stop, and the state after reset. Plain data. -/

namespace Sys2Proof.Machine

/-- `ST`, rule R103. -/
inductive InitState where
  | uninit
  | ready
  deriving DecidableEq, Repr

/-- `RSP_CODE`, rule R800. Code 7 is reserved and has no name: it is never produced. -/
inductive ResultCode where
  | ok
  | outOfRange
  | pageBoundary
  | initialization
  | deviceTimeout
  | notReady
  | illegalCommand
  deriving DecidableEq, Repr

/-- Where a poll returns to (rule R218): before a WRITE's sub-write, or to the command's return. -/
inductive PollEnd where
  | subWrite
  | done
  deriving DecidableEq, Repr

/-- What the command does with the answer of the frame `PHASE` stands before (rule R101, "the command plus a
continuation"; the command itself is in `CMD_OP`). -/
inductive Cont where
  /-- the frame is a poll's RDSR (rule R640) -/
  | poll (e : PollEnd)
  /-- the frame is a sub-write: advance A, OFF and REM, and loop (rule R520) -/
  | subWrite
  /-- the frame is a status write: `Poll()`, then return (rule R612) -/
  | thenPoll
  /-- the frame is the command's last: return `OK` -/
  | finish
  deriving DecidableEq, Repr

/-- `PHASE`, rule R101. -/
inductive Phase where
  | idle
  /-- a command is accepted and none of its pseudocode has run -/
  | decode
  /-- at `Xfer(tx)` -/
  | xfer (tx : List Byte) (k : Cont)
  /-- at a poll's `Sleep(POLL_INTERVAL)` -/
  | sleep (e : PollEnd)
  deriving DecidableEq, Repr

/-- The sequencer working registers, rule R102. -/
structure Seq where
  /-- `A`: current sub-write address; at least 18 bits, and 18 here (log 18) -/
  a : BitVec 18
  /-- `OFF`: offset of the next payload byte -/
  off : BitVec 18
  /-- `REM`: payload bytes not yet issued -/
  rem : BitVec 18
  /-- `N`: size of the current sub-write -/
  n : BitVec 9
  /-- `SR`: status byte read by a read-modify-write setter -/
  sr : Byte
  /-- `POLLS`: busy reads in the current poll; of no stated width, and
  nothing advances it when `POLL_LIMIT` is none (log 18) -/
  polls : Nat
  deriving DecidableEq, Repr

/-- A device cycle in progress, rules R238 to R256. -/
inductive Cycle where
  | write (a : Nat) (d : List Byte)
  | pageErase (p : Nat)
  | sectorErase (s : Nat)
  | chipErase
  | statusWrite (v : Byte)
  deriving DecidableEq, Repr

/-- The reference device's state, rule R232. -/
structure Device where
  /-- the array: the bytes that differ from `blankByte`, addresses rising -/
  arr : List Host.Cell
  wip : Bool
  wel : Bool
  bp : BitVec 2
  srwd : Bool
  /-- bits 6:4 of the status register, rule R115 -/
  rsv : BitVec 3
  /-- deep power-down -/
  dpd : Bool
  pending : Option Cycle
  deriving DecidableEq, Repr

/-- One transaction, rule R120: the bytes sent and the bytes received in the same frame. -/
structure Transaction where
  tx : List Byte
  rx : List Byte
  deriving DecidableEq, Repr

/-- Which agent takes the next step (rules R7, R240, R900): the block, the device's DevComplete, or a reset of the block. -/
inductive Turn where
  | block
  | device
  | reset
  deriving DecidableEq, Repr

/-- The machine: block, device, and what the environment has in store for them. -/
structure State where
  params : Params
  /-- `ST` -/
  st : InitState
  /-- `PHASE` -/
  phase : Phase
  /-- `BUSY` -/
  busy : Bool
  /-- `A`, `OFF`, `REM`, `N`, `SR`, `POLLS` -/
  seq : Seq
  /-- `CMD_OP`, `CMD_ADDR`, `CMD_LEN`, `CMD_ARG`, `CMD_DATA` -/
  cmd : CommandRegs
  /-- `RSP_CODE` -/
  rspCode : ResultCode
  /-- `RSP_BYTE` -/
  rspByte : Byte
  /-- `RSP_DATA` -/
  rspData : List Byte
  /-- `HOLD_N`, present when `HAS_CONTROL_LINES`; true is 1, inactive -/
  holdN : Bool
  /-- `WP_N`, present when `HAS_CONTROL_LINES`; true is 1, inactive -/
  wpN : Bool
  dev : Device
  /-- the bytes received in the last transaction (rules R13, R120) -/
  rx : List Byte
  /-- the transactions issued, oldest first (rule R6); nothing reads it back -/
  trace : List Transaction
  /-- the commands the host offers and the block has not accepted, first offered first (rule R106) -/
  inputs : List CommandRegs
  /-- the agents that take the next steps, as the environment chooses (rule R240; log 11) -/
  sched : List Turn
  /-- the counter the free values are applied to (log 8) -/
  fresh : Nat
  deriving DecidableEq, Repr

/-- Why the machine stops. -/
inductive Fault where
  /-- A completing device cycle names an address outside [0, 0x20000) (rule R210: no such byte exists). Raised by
  `completeCycle`. Safe: no run reaches it, since every cycle starts at an address taken modulo 0x20000. -/
  | arrayAddress
  deriving DecidableEq, Repr

/-- Why an instruction has no meaning. -/
inductive Refusal where
  /-- An instruction without a meaning yet, by its mnemonic. Raised by an arm of `exec`; no arm does. Safe. -/
  | notModelled (mnemonic : String)
  deriving DecidableEq, Repr

/-- The sequencer registers after reset: rule R140 leaves them unspecified; DESIGN CHOICE zero, log 2. -/
def Seq.reset : Seq where
  a := 0
  off := 0
  rem := 0
  n := 0
  sr := 0
  polls := 0

/-- The command registers after reset: rule R140 leaves them unspecified; DESIGN CHOICE zero, log 3. -/
def CommandRegs.reset : CommandRegs where
  op := 0
  addr := 0
  len := 0
  arg := 0
  data := []

/-- The device at power-up, rule R232; the draws (array, BP, SRWD, bits 6:4) have the values of logs 5 and 6. -/
def Device.powerUp : Device where
  arr := []
  wip := false
  wel := false
  bp := 0
  srwd := false
  rsv := 0
  dpd := false
  pending := none

/-- The machine after power-on reset: rule R140 for the block, rule R232 for the device. -/
def State.reset : State where
  params := Params.default
  st := .uninit
  phase := .idle
  busy := false
  seq := Seq.reset
  cmd := CommandRegs.reset
  rspCode := .ok
  rspByte := 0
  rspData := []
  holdN := true
  wpN := true
  dev := Device.powerUp
  rx := []
  trace := []
  inputs := []
  sched := []
  fresh := 0

end Sys2Proof.Machine
end

