-- ==== Sys2Proof/Machine/Operands.lean ====
section
/-! DEFINITION. Address arithmetic (rules R9, R11) and the checks on command operands (rules R332, R500). -/

namespace Sys2Proof.Machine

/-- `page(a)`, rule R9. -/
def page (a : Nat) : Nat := a / pageSize

/-- `page_off(a)`, rule R9. -/
def pageOff (a : Nat) : Nat := a % pageSize

/-- `page_base(a)`, rule R9. -/
def pageBase (a : Nat) : Nat := a - pageOff a

/-- `sector(a)`, rule R9. -/
def sector (a : Nat) : Nat := a / sectorSize

/-- `sector_base(a)`, rule R9. -/
def sectorBase (a : Nat) : Nat := sector a * sectorSize

/-- `in_range(a, n)` on mathematical integers, rule R500. -/
def inRange (a : Int) (n : Nat) : Bool :=
  !(decide (a < 0) || decide ((addrLimit : Int) < a + n))

/-- `int(CMD_ADDR)`, rule R11. -/
abbrev intAddr (a : Word32) : Int := a.toInt

/-- The 24-bit address field of a command's address, `a mod 2^24` (rule R310, decision D8). -/
abbrev fieldAddr (a : Word32) : Addr24 := a.setWidth 24

/-- The block-protect level operand of SET_BP: `CMD_ARG[1:0]`, none when bits 7:2 are not zero (rules R332, R620). -/
def levelArg (arg : Byte) : Option (BitVec 2) :=
  if arg.extractLsb' 2 6 = 0 then some (arg.extractLsb' 0 2) else none

/-- The Bool operand of SET_SRWD and SET_WEL: `CMD_ARG[0]`, none when bits 7:1 are not zero (rules R332, R626, R632). -/
def boolArg (arg : Byte) : Option Bool :=
  if arg.extractLsb' 1 7 = 0 then some (arg.getLsbD 0) else none

/-- The size of the next sub-write, `min(cap, REM)` (rule R520). -/
def chunkSize (cap rem : Nat) : Nat := min cap rem

/-- The size cap of the first sub-write: up to the next page boundary (rule R520, step 1). -/
def firstCap (a : Nat) : Nat := pageSize - pageOff a

end Sys2Proof.Machine
end

