-- ==== Sys2Proof/Machine/Flags.lean ====
section
/-! DEFINITION. The status register's fields (rule R111), the setters' bytes (rules R620, R626) and the protection
predicate (rule R114). -/

namespace Sys2Proof.Machine

/-- A Bool as an 8-bit value, `zext_8` (rule R10). -/
def boolByte (b : Bool) : Byte := (BitVec.ofBool b).setWidth 8

/-- The status byte RDSR returns, rule R232. -/
def statusByte (d : Device) : Byte :=
  boolByte d.srwd <<< 7 ||| d.rsv.setWidth 8 <<< 4 ||| d.bp.setWidth 8 <<< 2 ||| boolByte d.wel <<< 1 ||| boolByte d.wip

/-- WIP of a status byte, bit 0 (rule R628). -/
def wipOf (v : Byte) : Bool := v.getLsbD 0

/-- WEL of a status byte, bit 1 (rule R630). -/
def welOf (v : Byte) : Bool := v.getLsbD 1

/-- BP of a status byte, `(v & 0x0C) >> 2` (rule R618). -/
def bpOf (v : Byte) : Byte := (v &&& 0x0C#8) >>> 2

/-- SRWD of a status byte, bit 7 (rule R624). -/
def srwdOf (v : Byte) : Bool := v.getLsbD 7

/-- The byte SET_BP writes back, `(s & 0xF3) | (v << 2)` (rule R620). -/
def withBp (s : Byte) (v : BitVec 2) : Byte := (s &&& 0xF3#8) ||| (v.setWidth 8 <<< 2)

/-- The byte SET_SRWD writes back, `(s & 0x7F) | (b << 7)` (rule R626). -/
def withSrwd (s : Byte) (b : Bool) : Byte := (s &&& 0x7F#8) ||| (boolByte b <<< 7)

/-- How many sectors a block-protect level protects, counted from the top, rule R114: none, one, two, all. Its predicate
`sector(a) >= 4 - bp` leaves sector 0 out at level 3; the level list and vectors V65 and V66 are followed (DEDUCED,
log 15). -/
def protectedSectors (bp : BitVec 2) : Nat :=
  if bp = 3 then numSectors else bp.toNat

/-- `protected(a, bp)`, rule R114. -/
def protectedAt (a : Nat) (bp : BitVec 2) : Bool :=
  !(bp == 0) && decide (numSectors - protectedSectors bp ≤ sector a)

/-- The 3-bit number of a result code, rule R800. -/
def resultNumber : ResultCode → BitVec 3
  | .ok => 0
  | .outOfRange => 1
  | .pageBoundary => 2
  | .initialization => 3
  | .deviceTimeout => 4
  | .notReady => 5
  | .illegalCommand => 6

end Sys2Proof.Machine
end

