-- ==== Sys2Proof/Machine/Ops.lean ====
section
/-! DEFINITION. The named operations over the array's memory and over the block's registers: reading, writing and
filling bytes; ending a command with a result or an error (rule R812); accepting a command (rule R106); the block's
reset (rules R140, R900). -/

namespace Sys2Proof.Machine

/-- The canonical form of the array: addresses rising and below the limit, no entry equal to `blankByte`. -/
abbrev Memory.wf (m : List Host.Cell) : Prop :=
  m.Pairwise (fun c d => c.1 < d.1) ∧ ∀ c ∈ m, c.1 < addrLimit ∧ c.2 ≠ blankByte

/-- `MemRead(a, 1)`, rule R13. -/
def Memory.read : List Host.Cell → Nat → Byte
  | [], _ => blankByte
  | c :: m, a => if c.1 = a then c.2 else Memory.read m a

/-- `MemWrite(a, 1, v)`, rule R13. -/
def Memory.write : List Host.Cell → Nat → Byte → List Host.Cell
  | [], a, v => if v = blankByte then [] else [(a, v)]
  | c :: m, a, v =>
    if c.1 < a then c :: Memory.write m a v
    else
      let rest := if c.1 = a then m else c :: m
      if v = blankByte then rest else (a, v) :: rest

/-- The entries of `n` equal bytes from `base` on: none where the byte is the one unlisted addresses read as. -/
def Memory.run (base n : Nat) (v : Byte) : List Host.Cell :=
  if v = blankByte then [] else (List.range' base n).map fun a => (a, v)

/-- Every byte of `[base, base + n)` becomes `v`, as an erase does (rule R240). -/
def Memory.fill (m : List Host.Cell) (base n : Nat) (v : Byte) : List Host.Cell :=
  m.filter (fun c => decide (c.1 < base)) ++ (Memory.run base n v ++ m.filter (fun c => decide (base + n ≤ c.1)))

/-- The bytes of a write cycle into the page at `base`, the first at page offset `off`: the offset wraps in the page and
a later byte overwrites an earlier one (rules R238, R240). -/
def Memory.writePage (m : List Host.Cell) (base off : Nat) : List Byte → List Host.Cell
  | [] => m
  | v :: vs => Memory.writePage (Memory.write m (base + off % pageSize) v) base (off + 1) vs

/-- Unspecified sequencer registers (rules R102, R812): free values. -/
def freeSeq (n : Nat) : Seq where
  a := BitVec.ofNat 18 (Config.freeNat n 0)
  off := BitVec.ofNat 18 (Config.freeNat n 1)
  rem := BitVec.ofNat 18 (Config.freeNat n 2)
  n := BitVec.ofNat 9 (Config.freeNat n 3)
  sr := Config.freeByte n 0
  polls := Config.freeNat n 4

/-- Unspecified command registers (rule R140): free values. -/
def freeCommand (n : Nat) : CommandRegs where
  op := BitVec.ofNat 5 (Config.freeNat n 5)
  addr := BitVec.ofNat 32 (Config.freeNat n 6)
  len := BitVec.ofNat 32 (Config.freeNat n 7)
  arg := Config.freeByte n 1
  data := Config.freeBytes n 0

/-- The end of a command: `RSP_CODE` is set, `BUSY <- 0`, `PHASE <- IDLE`, and the sequencer registers are left
unspecified (rules R101, R102, R106). -/
def endCommand (c : ResultCode) (s : State) : State :=
  { s with rspCode := c, busy := false, phase := .idle, seq := freeSeq s.fresh, fresh := s.fresh + 1 }

/-- `return`: the command ends with `OK`; `RSP_BYTE` and `RSP_DATA` are as the command wrote them. -/
def finish (s : State) : State := endCommand .ok s

/-- `raise E()`, rules R13 and R812: the command ends with an error, `RSP_BYTE` and `RSP_DATA` unspecified (rule R105). -/
def raise (c : ResultCode) (s : State) : State :=
  endCommand c { s with rspByte := Config.freeByte s.fresh 2, rspData := Config.freeBytes s.fresh 1 }

/-- `RSP_BYTE <- v`, then `return`. -/
def finishByte (v : Byte) (s : State) : State := finish { s with rspByte := v }

/-- What a meaning answers. -/
abbrev Result := Host.Outcome State Fault Refusal

/-- A command that needs `ST = READY`: else `NOT_READY`, before any other check (rule R806). -/
def whenReady (body : State → State) (s : State) : State :=
  match s.st with
  | .ready => body s
  | .uninit => raise .notReady s

/-- The registers sampled from an offer: for WRITE, `CMD_LEN = len(CMD_DATA)` (rule R104, decision D43). -/
def sampled (r : CommandRegs) : CommandRegs :=
  if r.op = 0x02#5 then { r with len := BitVec.ofNat 32 r.data.length } else r

/-- With no command running, accept the first command the host offers, if it offers one (rule R106). -/
def accept (s : State) : State :=
  match s.busy, s.inputs with
  | false, r :: rest => { s with cmd := sampled r, inputs := rest, busy := true, phase := .decode }
  | _, _ => s

/-- A reset of the block while the machine runs: the values of rule R140, the unspecified registers free. It issues no
transaction and leaves the device alone (rule R900). -/
def blockReset (s : State) : State :=
  { s with
    st := .uninit
    phase := .idle
    busy := false
    seq := freeSeq s.fresh
    cmd := freeCommand s.fresh
    rspCode := .ok
    rspByte := Config.freeByte s.fresh 2
    rspData := Config.freeBytes s.fresh 1
    holdN := if s.params.hasControlLines then true else s.holdN
    wpN := if s.params.hasControlLines then true else s.wpN
    fresh := s.fresh + 1 }

end Sys2Proof.Machine
end

