-- ==== Sys2Proof/Machine/Device.lean ====
section
/-! DEFINITION. The reference device (20_memory.md Part 2): its answer to a frame, its DevComplete step, and the
transaction `Xfer` of the block with it (rules R13, R120). -/

namespace Sys2Proof.Machine

/-- The bytes received during a frame of `len` bytes: the named ones, and a draw wherever no rule names one (rule R234). -/
def reply (c len : Nat) (named : Nat → Option Byte) : List Byte :=
  (List.range len).map fun i => (named i).getD (Config.draw c i)

/-- The answer to a frame of whose received bytes no rule names one: with the device unchanged, a frame it ignores
(rules R234, R250, R258, R260). -/
def drawnReply (c : Nat) (d : Device) (tx : List Byte) : Device × List Byte :=
  (d, reply c tx.length fun _ => none)

/-- The address of a frame as the device takes it, `enc24⁻¹(tx[1..4)) mod 0x20000` (rule R236). -/
def frameAddr (tx : List Byte) : Nat :=
  (dec24 (tx.getD 1 0) (tx.getD 2 0) (tx.getD 3 0)).toNat % addrLimit

/-- A device cycle starts: `pending <- cycle`, `wip <- 1` (rules R238 to R256). -/
def startCycle (y : Cycle) (d : Device) : Device :=
  { d with pending := some y, wip := true }

/-- READ, rule R236. -/
def answerRead (c : Nat) (d : Device) (tx : List Byte) : Device × List Byte :=
  if 4 ≤ tx.length then
    (d, reply c tx.length fun i =>
      if 4 ≤ i then some (Memory.read d.arr ((frameAddr tx + (i - 4)) % addrLimit)) else none)
  else drawnReply c d tx

/-- WRITE, rule R238. -/
def answerWrite (c : Nat) (d : Device) (tx : List Byte) : Device × List Byte :=
  if 5 ≤ tx.length ∧ d.wel = true ∧ protectedAt (frameAddr tx) d.bp = false then
    drawnReply c (startCycle (.write (frameAddr tx) (tx.drop 4)) d) tx
  else drawnReply c d tx

/-- WREN, rule R242. -/
def answerWren (c : Nat) (d : Device) (tx : List Byte) : Device × List Byte :=
  drawnReply c { d with wel := true } tx

/-- WRDI, rule R242. -/
def answerWrdi (c : Nat) (d : Device) (tx : List Byte) : Device × List Byte :=
  drawnReply c { d with wel := false } tx

/-- RDSR, rule R244. -/
def answerRdsr (c : Nat) (d : Device) (tx : List Byte) : Device × List Byte :=
  (d, reply c tx.length fun i => if 1 ≤ i then some (statusByte d) else none)

/-- Whether SRWD refuses a status write, rule R246; `wp` is the level of the WP input. -/
def srwdRefuses (p : Params) (wp : Bool) (d : Device) : Bool :=
  match p.devSrwdMode with
  | .always => d.srwd
  | .withWp => d.srwd && !wp
  | .ignore => false

/-- WRSR, rule R246. -/
def answerWrsr (p : Params) (wp : Bool) (c : Nat) (d : Device) (tx : List Byte) : Device × List Byte :=
  if 2 ≤ tx.length ∧ (p.devWrsrIsWrite = true → d.wel = true) ∧ srwdRefuses p wp d = false then
    drawnReply c (startCycle (.statusWrite (tx.getD 1 0)) d) tx
  else drawnReply c d tx

/-- RDID, rule R248. -/
def answerRdid (p : Params) (c : Nat) (d : Device) (tx : List Byte) : Device × List Byte :=
  if 5 ≤ tx.length then
    ({ d with dpd := false }, reply c tx.length fun i => if i = 4 then some p.devId else none)
  else drawnReply c d tx

/-- DPD, rule R250. -/
def answerDpd (c : Nat) (d : Device) (tx : List Byte) : Device × List Byte :=
  drawnReply c { d with dpd := true } tx

/-- PE, rule R252. -/
def answerPe (p : Params) (c : Nat) (d : Device) (tx : List Byte) : Device × List Byte :=
  if 4 ≤ tx.length ∧ d.wel = true ∧ ¬(p.devEraseHonoursBp = true ∧ protectedAt (frameAddr tx) d.bp = true) then
    drawnReply c (startCycle (.pageErase (page (frameAddr tx))) d) tx
  else drawnReply c d tx

/-- SE, rule R254. -/
def answerSe (p : Params) (c : Nat) (d : Device) (tx : List Byte) : Device × List Byte :=
  if 4 ≤ tx.length ∧ d.wel = true ∧ ¬(p.devEraseHonoursBp = true ∧ protectedAt (frameAddr tx) d.bp = true) then
    drawnReply c (startCycle (.sectorErase (sector (frameAddr tx))) d) tx
  else drawnReply c d tx

/-- CE, rule R256. -/
def answerCe (p : Params) (c : Nat) (d : Device) (tx : List Byte) : Device × List Byte :=
  if d.wel = true ∧ ¬(p.devEraseHonoursBp = true ∧ d.bp ≠ 0) then
    drawnReply c (startCycle .chipErase d) tx
  else drawnReply c d tx

/-- The device acts on a frame that its state lets through, by its first byte (rules R234, R260). -/
def answerByOpcode (p : Params) (wp : Bool) (c : Nat) (d : Device) (op : Byte) (tx : List Byte) : Device × List Byte :=
  if op = 0x03#8 then answerRead c d tx
  else if op = 0x02#8 then answerWrite c d tx
  else if op = 0x06#8 then answerWren c d tx
  else if op = 0x04#8 then answerWrdi c d tx
  else if op = 0x05#8 then answerRdsr c d tx
  else if op = 0x01#8 then answerWrsr p wp c d tx
  else if op = 0x42#8 then answerPe p c d tx
  else if op = 0xD8#8 then answerSe p c d tx
  else if op = 0xC7#8 then answerCe p c d tx
  else if op = 0xAB#8 then answerRdid p c d tx
  else if op = 0xB9#8 then answerDpd c d tx
  else drawnReply c d tx

/-- The device's answer to a frame: in deep power-down only RDID, in a cycle only RDSR, is not ignored (rule R234). -/
def answer (p : Params) (wp : Bool) (c : Nat) (d : Device) (tx : List Byte) : Device × List Byte :=
  match tx with
  | [] => drawnReply c d tx
  | op :: _ =>
    if d.dpd = true ∧ op ≠ 0xAB#8 then drawnReply c d tx
    else if d.wip = true ∧ op ≠ 0x05#8 then drawnReply c d tx
    else answerByOpcode p wp c d op tx

/-- The level of the device's WP input: `WP_N`, or `DEV_WP_PIN` without control lines (rule R246). -/
def wpInput (s : State) : Bool :=
  if s.params.hasControlLines then s.wpN else s.params.devWpPin

/-- `Xfer(tx)`, rule R13: one transaction, atomic with the device's answer (rules R6, R266). -/
def exchange (tx : List Byte) (s : State) : State :=
  let ans := answer s.params (wpInput s) s.fresh s.dev tx
  { s with dev := ans.1, rx := ans.2, trace := s.trace ++ [⟨tx, ans.2⟩], fresh := s.fresh + 1 }

/-- `rx[i]` of the last transaction. -/
def rxByte (i : Nat) (s : State) : Byte := s.rx.getD i 0

/-- The bytes of the array after a cycle's effect, rule R240. -/
def cycleArray (p : Params) (arr : List Host.Cell) : Cycle → List Host.Cell
  | .write a d => Memory.writePage arr (pageBase a) (pageOff a) d
  | .pageErase k => Memory.fill arr (k * pageSize) pageSize p.erasedByte
  | .sectorErase k => Memory.fill arr (k * sectorSize) sectorSize p.erasedByte
  | .chipErase => Memory.fill arr 0 addrLimit p.erasedByte
  | .statusWrite _ => arr

/-- Whether WEL is cleared when a cycle completes, rule R240. -/
def clearsWel (p : Params) : Cycle → Bool
  | .statusWrite _ => p.devWrsrIsWrite
  | _ => p.devWelAutoclear

/-- The device after a cycle's effect, with the cycle over (rule R240). -/
def cycleEffect (p : Params) (y : Cycle) (d : Device) : Device :=
  { d with
    arr := cycleArray p d.arr y
    wel := d.wel && !clearsWel p y
    bp := match y with
      | .statusWrite v => v.extractLsb' 2 2
      | _ => d.bp
    srwd := match y with
      | .statusWrite v => v.getLsbD 7
      | _ => d.srwd
    pending := none
    wip := false }

/-- Whether a cycle names bytes that exist (rule R210). -/
def cycleInArray : Cycle → Bool
  | .write a _ => decide (a < addrLimit)
  | .pageErase k => decide (k < numPages)
  | .sectorErase k => decide (k < numSectors)
  | .chipErase => true
  | .statusWrite _ => true

/-- `DevComplete`, rule R240. -/
def completeCycle (s : State) : Except Fault State :=
  match s.dev.pending with
  | none => .ok s
  | some y =>
    if cycleInArray y = true then .ok { s with dev := cycleEffect s.params y s.dev }
    else .error .arrayAddress

end Sys2Proof.Machine
end

