-- ==== Sys2Proof/Machine/Sequencer.lean ====
section
/-! DEFINITION. The sequencer's shared pieces: the busy poll (rules R640, R642), the WRITE loop (rule R520), and going on
after a frame's answer. -/

namespace Sys2Proof.Machine

/-- `PHASE <-` the position before `Xfer(tx)`; `k` is what follows it. -/
def stopBefore (tx : List Byte) (k : Cont) (s : State) : State :=
  { s with phase := .xfer tx k, busy := true }

/-- The start of `Poll()`: `POLLS <- 0`, and the first RDSR comes next (rule R640). -/
def startPoll (e : PollEnd) (s : State) : State :=
  stopBefore (encRdsr s.params) (.poll e) { s with seq := { s.seq with polls := 0 } }

/-- The payload of the current sub-write, `buf[OFF .. OFF+N)` (rule R520). -/
def chunkData (s : State) : List Byte := (s.cmd.data.drop s.seq.off.toNat).take s.seq.n.toNat

/-- The frame of the current sub-write, `E_WRITE(A, buf[OFF .. OFF+N))`. -/
def chunkFrame (s : State) : List Byte := encWrite (s.seq.a.setWidth 24) (chunkData s)

/-- `Poll()` returns (rule R640). -/
def pollReturn (e : PollEnd) (s : State) : State :=
  match e with
  | .subWrite => stopBefore (chunkFrame s) .subWrite s
  | .done => finish s

/-- `POLLS <- POLLS + 1`. -/
def countBusy (s : State) : State := { s with seq := { s.seq with polls := s.seq.polls + 1 } }

/-- `PHASE <-` the poll's `Sleep(POLL_INTERVAL)`. -/
def stopAtSleep (e : PollEnd) (s : State) : State := { s with phase := .sleep e, busy := true }

/-- A busy reading: `Sleep` next, or `DEVICE_TIMEOUT` at `POLL_LIMIT` busy readings (rules R640, R642). -/
def pollBusy (e : PollEnd) (s : State) : State :=
  match s.params.pollLimit with
  | none => stopAtSleep e s
  | some limit =>
    if limit ≤ s.seq.polls + 1 then raise .deviceTimeout (countBusy s) else stopAtSleep e (countBusy s)

/-- The loop body of `Poll()` after its RDSR: only bit 0 is tested (rule R640). -/
def pollAnswer (e : PollEnd) (s : State) : State :=
  if wipOf (rxByte 1 s) = true then pollBusy e s else pollReturn e s

/-- After `Sleep(POLL_INTERVAL)`: the poll's next RDSR (rule R640). -/
def pollAgain (e : PollEnd) (s : State) : State := stopBefore (encRdsr s.params) (.poll e) s

/-- `N <- n`. -/
def setChunk (n : Nat) (s : State) : State := { s with seq := { s.seq with n := BitVec.ofNat 9 n } }

/-- The checks of the sub-write of N bytes at A, and its poll (rule R520, step 3). -/
def checkChunk (s : State) : State :=
  if inRange (s.seq.a.toNat : Int) s.seq.n.toNat = false then raise .outOfRange s
  else if page s.seq.a.toNat ≠ page (s.seq.a.toNat + s.seq.n.toNat - 1) then raise .pageBoundary s
  else startPoll .subWrite s

/-- The top of WRITE's `while REM > 0`, with its `cap` (rule R520): the final poll when nothing is left; else the next
sub-write. -/
def writeLoop (cap : Nat) (s : State) : State :=
  if s.seq.rem = 0 then startPoll .done s else checkChunk (setChunk (chunkSize cap s.seq.rem.toNat) s)

/-- `A <- A + N; OFF <- OFF + N; REM <- REM - N` (rule R520). -/
def advance (s : State) : State :=
  { s with
    seq := { s.seq with
      a := s.seq.a + s.seq.n.setWidth 18
      off := s.seq.off + s.seq.n.setWidth 18
      rem := s.seq.rem - s.seq.n.setWidth 18 } }

/-- After a sub-write's frame: the registers advance, and the cap is a whole page (rule R520). -/
def nextChunk (s : State) : State := writeLoop pageSize (advance s)

/-- What the command does with the answer of its frame. -/
def resume (k : Cont) (s : State) : State :=
  match k with
  | .poll e => pollAnswer e s
  | .subWrite => nextChunk s
  | .thenPoll => startPoll .done s
  | .finish => finish s

/-- Issue the frame `PHASE` stands before, and go on; nothing where `PHASE` stands before none. -/
def issueAtPhase (s : State) : State :=
  match s.phase with
  | .xfer tx k => resume k (exchange tx s)
  | _ => s

/-- `WRITE_STATUS(v)` from its WRSR on, as the setters use it (rules R612, R620, R626): the WRSR comes next. -/
def thenWriteStatus (v : Byte) (s : State) : State := stopBefore (encWrsr v) .thenPoll s

end Sys2Proof.Machine
end

