-- ==== Sys2Proof/Machine/CmdAccess.lean ====
section
/-! DEFINITION. READ and WRITE (42_read_write.md). -/

namespace Sys2Proof.Machine

/-- READ in range: one transaction; `RSP_DATA` is what follows its first four bytes (rule R510). -/
def readArray (addr : Word32) (n : Nat) (s : State) : State :=
  let t := exchange (encRead s.params (fieldAddr addr) n) s
  finish { t with rspData := t.rx.drop 4 }

/-- READ, rule R510. -/
def execCmdRead (addr : Word32) (len : Word32) (s : State) : Result :=
  .next (whenReady (fun s =>
    if inRange (intAddr addr) len.toNat = true then readArray addr len.toNat s else raise .outOfRange s) s)

/-- WRITE in range: `A <- a; OFF <- 0; REM <- k`, the payload in `CMD_DATA`, and the loop from its first cap (rule R520). -/
def startWrite (addr : Word32) (data : List Byte) (s : State) : State :=
  let a := addr.setWidth 18
  writeLoop (firstCap a.toNat)
    { s with
      cmd := { s.cmd with data := data }
      seq := { s.seq with a := a, off := 0, rem := BitVec.ofNat 18 data.length } }

/-- WRITE up to its first transaction, the first poll's first RDSR; later steps go on from `PHASE` (rule R520). -/
def execCmdWrite (addr : Word32) (data : List Byte) (s : State) : Result :=
  .next (whenReady (fun s =>
    if inRange (intAddr addr) data.length = true then issueAtPhase (startWrite addr data s)
    else raise .outOfRange s) s)

end Sys2Proof.Machine
end

