-- ==== Sys2Proof/Machine/CmdErase.lean ====
section
/-! DEFINITION. The erase commands (44_erase_power.md section 1). -/

namespace Sys2Proof.Machine

/-- An erase of an address: the range check where `ERASE_RANGE_CHECK`, the frame, then `Poll()` (rules R700, R702). -/
def eraseAt (frame : Addr24 → List Byte) (addr : Word32) (s : State) : State :=
  if s.params.eraseRangeCheck = true ∧ inRange (intAddr addr) 1 = false then raise .outOfRange s
  else startPoll .done (exchange (frame (fieldAddr addr)) s)

/-- ERASE_PAGE, rule R700. -/
def execCmdErasePage (addr : Word32) (s : State) : Result := .next (whenReady (eraseAt encPe addr) s)

/-- ERASE_SECTOR, rule R702. -/
def execCmdEraseSector (addr : Word32) (s : State) : Result := .next (whenReady (eraseAt encSe addr) s)

/-- ERASE_CHIP, rule R704. -/
def execCmdEraseChip (s : State) : Result := .next (whenReady (fun s => startPoll .done (exchange encCe s)) s)

end Sys2Proof.Machine
end

