-- ==== Sys2Proof/Machine/CmdInit.lean ====
section
/-! DEFINITION. INIT (41_init.md) and the reserved command codes (rule R332). -/

namespace Sys2Proof.Machine

/-- INIT drives both control lines inactive, where the block has them (rule R450). -/
def driveLinesInactive (s : State) : State :=
  if s.params.hasControlLines = true then { s with holdN := true, wpN := true } else s

/-- INIT after its RDID: the identity check (rules R450, R455). -/
def checkIdentity (s : State) : State :=
  if rxByte 4 s = s.params.expectedSignature then finishByte (rxByte 4 s) { s with st := .ready }
  else raise .initialization { s with st := .uninit }

/-- INIT, rules R450, R455, R457. -/
def execCmdInit (s : State) : Result :=
  .next (checkIdentity (exchange (encRdid s.params) (driveLinesInactive s)))

/-- A reserved command code: `ILLEGAL_COMMAND` whatever `ST` is, and no transaction (rules R332, R807). -/
def execCmdReserved (_op : BitVec 5) (s : State) : Result := .next (raise .illegalCommand s)

end Sys2Proof.Machine
end

