-- ==== Sys2Proof/Machine/CmdPower.lean ====
section
/-! DEFINITION. The power commands (44_erase_power.md section 2). -/

namespace Sys2Proof.Machine

/-- DEEP_POWER_DOWN, rule R710: no poll. -/
def execCmdDeepPowerDown (s : State) : Result := .next (whenReady (fun s => finish (exchange encDpd s)) s)

/-- WAKE, rule R712: the identity byte is returned and compared with nothing. -/
def execCmdWake (s : State) : Result :=
  .next (whenReady (fun s =>
    let t := exchange (encRdid s.params) s
    finishByte (rxByte 4 t) t) s)

end Sys2Proof.Machine
end

