-- ==== Sys2Proof/Machine/CmdStatus.lean ====
section
/-! DEFINITION. The status-register commands (43_status.md). -/

namespace Sys2Proof.Machine

/-- A getter: one RDSR, and a field of the byte read is the result (rule R600). -/
def getField (field : Byte → Byte) (s : State) : State :=
  let t := exchange (encRdsr s.params) s
  finishByte (field (rxByte 1 t)) t

/-- A read-modify-write setter: `SR <-` the byte of one RDSR, then `WRITE_STATUS` of the changed byte (rules R600, R620,
R626). -/
def setField (change : Byte → Byte) (s : State) : State :=
  let t := exchange (encRdsr s.params) s
  let u := { t with seq := { t.seq with sr := rxByte 1 t } }
  thenWriteStatus (change u.seq.sr) u

/-- READ_STATUS, rule R610. -/
def execCmdReadStatus (s : State) : Result := .next (whenReady (getField id) s)

/-- WRITE_STATUS, rule R612. -/
def execCmdWriteStatus (arg : Byte) (s : State) : Result :=
  .next (whenReady (fun s => startPoll .done (exchange (encWrsr arg) s)) s)

/-- GET_BP, rule R618. -/
def execCmdGetBp (s : State) : Result := .next (whenReady (getField bpOf) s)

/-- SET_BP, rule R620. -/
def execCmdSetBp (arg : Byte) (s : State) : Result :=
  .next (whenReady (fun s =>
    match levelArg arg with
    | none => raise .illegalCommand s
    | some v => setField (fun sr => withBp sr v) s) s)

/-- GET_SRWD, rule R624. -/
def execCmdGetSrwd (s : State) : Result := .next (whenReady (getField fun v => boolByte (srwdOf v)) s)

/-- SET_SRWD, rule R626. -/
def execCmdSetSrwd (arg : Byte) (s : State) : Result :=
  .next (whenReady (fun s =>
    match boolArg arg with
    | none => raise .illegalCommand s
    | some b => setField (fun sr => withSrwd sr b) s) s)

/-- GET_WIP, rule R628. -/
def execCmdGetWip (s : State) : Result := .next (whenReady (getField fun v => boolByte (wipOf v)) s)

/-- GET_WEL, rule R630. -/
def execCmdGetWel (s : State) : Result := .next (whenReady (getField fun v => boolByte (welOf v)) s)

/-- SET_WEL, rule R632. -/
def execCmdSetWel (arg : Byte) (s : State) : Result :=
  .next (whenReady (fun s =>
    match boolArg arg with
    | none => raise .illegalCommand s
    | some true => finish (exchange encWren s)
    | some false => finish (exchange encWrdi s)) s)

end Sys2Proof.Machine
end

