-- ==== Sys2Proof/Machine/SpiFrames.lean ====
section
/-! DEFINITION. The eleven SPI instructions: each issues its frame (40_encoder.md) in one transaction, which the device
answers (20_memory.md Part 2); what a command does with the answer is the command's. -/

namespace Sys2Proof.Machine

/-- READ, rules R236, R401. -/
def execSpiRead (addr : Addr24) (n : Nat) (s : State) : Result := .next (exchange (encRead s.params addr n) s)

/-- WRITE, rules R238, R402. -/
def execSpiWrite (addr : Addr24) (data : List Byte) (s : State) : Result := .next (exchange (encWrite addr data) s)

/-- WREN, rules R242, R403. -/
def execSpiWren (s : State) : Result := .next (exchange encWren s)

/-- WRDI, rules R242, R404. -/
def execSpiWrdi (s : State) : Result := .next (exchange encWrdi s)

/-- RDSR, rules R244, R405. -/
def execSpiRdsr (s : State) : Result := .next (exchange (encRdsr s.params) s)

/-- WRSR, rules R246, R406. -/
def execSpiWrsr (v : Byte) (s : State) : Result := .next (exchange (encWrsr v) s)

/-- PE, rules R252, R407. -/
def execSpiPe (addr : Addr24) (s : State) : Result := .next (exchange (encPe addr) s)

/-- SE, rules R254, R408. -/
def execSpiSe (addr : Addr24) (s : State) : Result := .next (exchange (encSe addr) s)

/-- CE, rules R256, R409. -/
def execSpiCe (s : State) : Result := .next (exchange encCe s)

/-- RDID, rules R248, R410. -/
def execSpiRdid (s : State) : Result := .next (exchange (encRdid s.params) s)

/-- DPD, rules R250, R411. -/
def execSpiDpd (s : State) : Result := .next (exchange encDpd s)

end Sys2Proof.Machine
end

