-- ==== Sys2Proof/Machine/Dispatch.lean ====
section
/-! DEFINITION. One arm per constructor of Instr. -/

namespace Sys2Proof.Machine

def exec (i : Instr) (s : State) : Host.Outcome State Fault Refusal :=
  match i with
  | .spiRead addr n => Sys2Proof.Machine.execSpiRead addr n s
  | .spiWrite addr data => Sys2Proof.Machine.execSpiWrite addr data s
  | .spiWren => Sys2Proof.Machine.execSpiWren s
  | .spiWrdi => Sys2Proof.Machine.execSpiWrdi s
  | .spiRdsr => Sys2Proof.Machine.execSpiRdsr s
  | .spiWrsr v => Sys2Proof.Machine.execSpiWrsr v s
  | .spiPe addr => Sys2Proof.Machine.execSpiPe addr s
  | .spiSe addr => Sys2Proof.Machine.execSpiSe addr s
  | .spiCe => Sys2Proof.Machine.execSpiCe s
  | .spiRdid => Sys2Proof.Machine.execSpiRdid s
  | .spiDpd => Sys2Proof.Machine.execSpiDpd s
  | .cmdInit => Sys2Proof.Machine.execCmdInit s
  | .cmdRead addr len => Sys2Proof.Machine.execCmdRead addr len s
  | .cmdWrite addr data => Sys2Proof.Machine.execCmdWrite addr data s
  | .cmdReadStatus => Sys2Proof.Machine.execCmdReadStatus s
  | .cmdWriteStatus arg => Sys2Proof.Machine.execCmdWriteStatus arg s
  | .cmdGetWel => Sys2Proof.Machine.execCmdGetWel s
  | .cmdSetWel arg => Sys2Proof.Machine.execCmdSetWel arg s
  | .cmdGetWip => Sys2Proof.Machine.execCmdGetWip s
  | .cmdGetBp => Sys2Proof.Machine.execCmdGetBp s
  | .cmdSetBp arg => Sys2Proof.Machine.execCmdSetBp arg s
  | .cmdGetSrwd => Sys2Proof.Machine.execCmdGetSrwd s
  | .cmdSetSrwd arg => Sys2Proof.Machine.execCmdSetSrwd arg s
  | .cmdErasePage addr => Sys2Proof.Machine.execCmdErasePage addr s
  | .cmdEraseSector addr => Sys2Proof.Machine.execCmdEraseSector addr s
  | .cmdEraseChip => Sys2Proof.Machine.execCmdEraseChip s
  | .cmdDeepPowerDown => Sys2Proof.Machine.execCmdDeepPowerDown s
  | .cmdWake => Sys2Proof.Machine.execCmdWake s
  | .cmdReserved op => Sys2Proof.Machine.execCmdReserved op s

end Sys2Proof.Machine
end

