-- ==== Sys2Proof/Machine/Fetch.lean ====
section
/-! DEFINITION. What a step does before and around exec: whose turn it is, and which instruction PHASE stands at; and
placing an opcode-table word where the next step fetches it. -/

namespace Sys2Proof.Machine

/-- DevComplete is enabled whenever a cycle is pending (rule R240); a turn the device cannot take is the block's. -/
def enabledTurn (d : Device) (t : Turn) : Turn :=
  match t, d.pending with
  | .device, none => .block
  | t, _ => t

/-- The agent that moves next and the state with that choice used up: the environment's list first; when it is empty, the
block, but a free value while a cycle is pending (rule R240; log 11). -/
def takeTurn (s : State) : Turn × State :=
  match s.sched with
  | t :: rest => (enabledTurn s.dev t, { s with sched := rest })
  | [] =>
    match s.dev.pending with
    | none => (.block, s)
    | some _ =>
      (if Config.deviceMoves s.fresh = true then .device else .block, { s with fresh := s.fresh + 1 })

/-- What a step does: all of it (`done`), a stop, or an instruction to execute, with what follows it. -/
inductive Move where
  | done (s : State)
  | stop (f : Fault)
  | command (i : Instr) (s : State)
  | frame (i : Instr) (k : Cont) (s : State)
  deriving DecidableEq, Repr

/-- The block's move at `PHASE` (rules R101, R106): accept an offer, run the accepted command, sleep, or issue a frame. A
frame that is none of rule R301 is issued as it stands and the device ignores it (rule R260); no run reaches that. -/
def blockMove (s : State) : Move :=
  match s.phase with
  | .idle => .done (accept s)
  | .decode => .command (decodeCommand s.cmd) s
  | .sleep e => .done (pollAgain e s)
  | .xfer tx k =>
    match decodeFrame tx with
    | .ok i => .frame i k s
    | .error _ => .done (resume k (exchange tx s))

/-- The device's move, DevComplete (rule R240). -/
def deviceMove (s : State) : Move :=
  match completeCycle s with
  | .ok t => .done t
  | .error f => .stop f

/-- The next move of the machine. -/
def nextMove (s : State) : Move :=
  match takeTurn s with
  | (.block, t) => blockMove t
  | (.device, t) => deviceMove t
  | (.reset, t) => .done (blockReset t)

/-- The environment's list with the block to move next; unchanged where the block moves next anyway. -/
def blockNext (s : State) : List Turn :=
  match s.sched, s.dev.pending with
  | [], none => []
  | ts, _ => .block :: ts

/-- `s` with the words where the next step fetches: an accepted command in the command registers, or `PHASE` before a
frame that ends its command (log 10, log 12). -/
def placeWords (x : Words) (s : State) : State :=
  match x with
  | .command r => { s with cmd := r, busy := true, phase := .decode, sched := blockNext s }
  | .frame tx => { s with busy := true, phase := .xfer tx .finish, sched := blockNext s }

/-- `s` with an opcode-table word where the next step fetches; a word of no row changes nothing. -/
def placeTableWord (s : State) (nbits w : Nat) : State :=
  match tableWords nbits w with
  | some x => placeWords x s
  | none => s

end Sys2Proof.Machine
end

