-- ==== Sys2Proof/Machine/Step.lean ====
section
/-! DEFINITION. One step of the machine. -/

namespace Sys2Proof.Machine

/-- One step: the moving agent's, and where that is the block at an instruction, exec of it (and, for a frame, the
command's use of its answer). -/
def step (s : State) : Host.Outcome State Fault Refusal :=
  match nextMove s with
  | .done t => .next t
  | .stop f => .fault f
  | .command i t => exec i t
  | .frame i k t =>
    match exec i t with
    | .next u => .next (resume k u)
    | o => o

/-- `s` with an opcode-table word where the next step fetches its instruction (log 12). -/
def State.withFetchWord (s : State) (nbits w : Nat) : State := placeTableWord s nbits w

end Sys2Proof.Machine
end

