-- ==== Sys2Proof/Machine/Assembly.lean ====
section
/-! DEFINITION. Command programs as the spec writes them (rule R340) and their second spellings (rule R341): one line is
one command. -/

namespace Sys2Proof.Machine

/-- One line of a command program, rule R340. -/
inductive AsmLine where
  | init
  | read (addr : Int) (len : Nat)
  | write (addr : Int) (data : List Byte)
  /-- `write <addr>, <k> x <byte>` -/
  | writeCopies (addr : Int) (k : Nat) (b : Byte)
  | status
  | setStatus (v : Byte)
  | writeEnable
  | setWriteEnable (v : Byte)
  | writeInProgress
  | blockProtect
  | setBlockProtect (v : Byte)
  | writeProtectEnable
  | setWriteProtectEnable (v : Byte)
  | erasePage (addr : Int)
  | eraseSector (addr : Int)
  | eraseChip
  | deepPowerDown
  | wake
  /-- the other spelling of `wake` -/
  | identity
  deriving DecidableEq, Repr

/-- The command a line stands for (rules R340, R341). DESIGN CHOICE (log 24): an address or length that does not fit its
32-bit operand is taken modulo 2^32; the syntax gives it no bound and no meaning. -/
def asmInstr : AsmLine → Instr
  | .init => .cmdInit
  | .read a n => .cmdRead (BitVec.ofInt 32 a) (BitVec.ofNat 32 n)
  | .write a d => .cmdWrite (BitVec.ofInt 32 a) d
  | .writeCopies a k b => .cmdWrite (BitVec.ofInt 32 a) (List.replicate k b)
  | .status => .cmdReadStatus
  | .setStatus v => .cmdWriteStatus v
  | .writeEnable => .cmdGetWel
  | .setWriteEnable v => .cmdSetWel v
  | .writeInProgress => .cmdGetWip
  | .blockProtect => .cmdGetBp
  | .setBlockProtect v => .cmdSetBp v
  | .writeProtectEnable => .cmdGetSrwd
  | .setWriteProtectEnable v => .cmdSetSrwd v
  | .erasePage a => .cmdErasePage (BitVec.ofInt 32 a)
  | .eraseSector a => .cmdEraseSector (BitVec.ofInt 32 a)
  | .eraseChip => .cmdEraseChip
  | .deepPowerDown => .cmdDeepPowerDown
  | .wake => .cmdWake
  | .identity => .cmdWake

/-- The command registers of an instruction's words; those of a frame are all zero. -/
def offerOf : Words → CommandRegs
  | .command r => r
  | .frame _ => CommandRegs.reset

/-- The commands a program offers, in order. -/
def asmOffers (p : Params) (prog : List AsmLine) : List CommandRegs :=
  prog.map fun l => offerOf (encode p (asmInstr l))

/-- A hexadecimal digit. -/
def hexDigit (n : Nat) : Char := "0123456789ABCDEF".toList.getD n '0'

/-- A byte as two hexadecimal digits, as rule R340 writes the bytes of a frame. -/
def hexByte (b : Byte) : String := String.ofList [hexDigit (b.toNat / 16), hexDigit (b.toNat % 16)]

/-- Bytes with one space before each. -/
def hexBytes (bs : List Byte) : String := bs.foldl (fun t b => t ++ " " ++ hexByte b) ""

/-- The data phase of a frame, after a bar; nothing for an empty one. -/
def dataPhase : List Byte → String
  | [] => ""
  | bs => " |" ++ hexBytes bs

/-- A byte in C notation. -/
def cByte (b : Byte) : String := "0x" ++ hexByte b

/-- A payload in brackets. -/
def cBytes (bs : List Byte) : String := "[" ++ ", ".intercalate (bs.map cByte) ++ "]"

/-- A line's text, rule R340. -/
def asmText : AsmLine → String
  | .init => "init"
  | .read a n => "read " ++ toString a ++ ", " ++ toString n
  | .write a d => "write " ++ toString a ++ ", " ++ cBytes d
  | .writeCopies a k b => "write " ++ toString a ++ ", " ++ toString k ++ " x " ++ cByte b
  | .status => "status"
  | .setStatus v => "status = " ++ cByte v
  | .writeEnable => "writeEnable"
  | .setWriteEnable v => "writeEnable = " ++ toString v.toNat
  | .writeInProgress => "writeInProgress"
  | .blockProtect => "blockProtect"
  | .setBlockProtect v => "blockProtect = " ++ toString v.toNat
  | .writeProtectEnable => "writeProtectEnable"
  | .setWriteProtectEnable v => "writeProtectEnable = " ++ toString v.toNat
  | .erasePage a => "erasePage " ++ toString a
  | .eraseSector a => "eraseSector " ++ toString a
  | .eraseChip => "eraseChip"
  | .deepPowerDown => "deepPowerDown"
  | .wake => "wake"
  | .identity => "identity"

/-- A frame's text, rule R340: the instruction's name, its bytes, and after a bar its data phase; none for a byte list
that is no frame. -/
def frameText (tx : List Byte) : Option String :=
  match decodeFrame tx with
  | .ok (.spiRead _ _) => some ("READ" ++ hexBytes ((tx.drop 1).take 3) ++ dataPhase (tx.drop 4))
  | .ok (.spiWrite _ _) => some ("WRITE" ++ hexBytes ((tx.drop 1).take 3) ++ dataPhase (tx.drop 4))
  | .ok .spiWren => some "WREN"
  | .ok .spiWrdi => some "WRDI"
  | .ok .spiRdsr => some ("RDSR" ++ dataPhase (tx.drop 1))
  | .ok (.spiWrsr _) => some ("WRSR" ++ hexBytes (tx.drop 1))
  | .ok (.spiPe _) => some ("PE" ++ hexBytes (tx.drop 1))
  | .ok (.spiSe _) => some ("SE" ++ hexBytes (tx.drop 1))
  | .ok .spiCe => some "CE"
  | .ok .spiRdid => some ("RDID" ++ hexBytes ((tx.drop 1).take 3) ++ dataPhase (tx.drop 4))
  | .ok .spiDpd => some "DPD"
  | _ => none

end Sys2Proof.Machine
end

