-- ==== Sys2Proof/Safety.lean ====
section
/-! DEFINITION. The terms claims are stated in: what a step leaves alone, how a command ends, the machine's invariant, and
the chunks of a WRITE. -/

namespace Sys2Proof.Machine

/-! What a step leaves alone. -/

/-- The parameters, the host's offers and the environment's list are as before. -/
def KeepsEnvironment (s t : State) : Prop :=
  t.params = s.params ∧ t.inputs = s.inputs ∧ t.sched = s.sched

/-- The command registers and the control lines are as before. -/
def KeepsPorts (s t : State) : Prop :=
  t.cmd = s.cmd ∧ t.holdN = s.holdN ∧ t.wpN = s.wpN

/-- `PHASE`, `BUSY`, the sequencer registers, `ST` and the response registers are as before. -/
def KeepsSequencer (s t : State) : Prop :=
  t.st = s.st ∧ t.phase = s.phase ∧ t.busy = s.busy ∧ t.seq = s.seq ∧ t.rspCode = s.rspCode
    ∧ t.rspByte = s.rspByte ∧ t.rspData = s.rspData

/-- Every byte of the array reads as before. -/
def KeepsArray (s t : State) : Prop :=
  ∀ a, Memory.read t.dev.arr a = Memory.read s.dev.arr a

/-- The device's block protection, SRWD and reserved bits are as before. -/
def KeepsProtection (s t : State) : Prop :=
  t.dev.bp = s.dev.bp ∧ t.dev.srwd = s.dev.srwd ∧ t.dev.rsv = s.dev.rsv

/-- Everything but the sequencer, the response and the device's volatile state (WIP, WEL, power-down, the pending cycle)
is as before: the frame of every command that is not INIT. -/
def KeepsRest (s t : State) : Prop :=
  KeepsEnvironment s t ∧ KeepsPorts s t ∧ t.st = s.st ∧ KeepsArray s t ∧ KeepsProtection s t

/-- `RSP_BYTE` and `RSP_DATA` are as before. -/
def KeepsResponse (s t : State) : Prop :=
  t.rspByte = s.rspByte ∧ t.rspData = s.rspData

/-! Transactions and results. -/

/-- Exactly one transaction was issued, with these bytes; as many were received. -/
def Issues (tx : List Byte) (s t : State) : Prop :=
  t.rx.length = tx.length ∧ t.trace = s.trace ++ [⟨tx, t.rx⟩]

/-- No transaction was issued, and the device is as before. -/
def IssuesNothing (s t : State) : Prop :=
  t.trace = s.trace ∧ t.rx = s.rx ∧ t.dev = s.dev

/-- The command has ended with this result code (rule R812 (a)). -/
def Ends (c : ResultCode) (t : State) : Prop :=
  t.rspCode = c ∧ t.busy = false ∧ t.phase = .idle

/-- The sequencer stands before this frame, with the command still running. -/
def StandsBefore (tx : List Byte) (k : Cont) (t : State) : Prop :=
  t.phase = .xfer tx k ∧ t.busy = true

/-- The sequencer stands before a poll's first RDSR. -/
def StartsPoll (e : PollEnd) (t : State) : Prop :=
  StandsBefore (encRdsr t.params) (.poll e) t ∧ t.seq.polls = 0

/-- The device takes a frame with this first byte (rule R234). -/
def Listens (op : Byte) (d : Device) : Prop :=
  (d.dpd = true → op = 0xAB#8) ∧ (d.wip = true → op = 0x05#8)

/-- The SRWD gate lets a status write through (rule R246). -/
def SrwdAllows (s : State) : Prop :=
  (s.params.devSrwdMode = .always → s.dev.srwd = false)
    ∧ (s.params.devSrwdMode = .withWp → s.dev.srwd = true → wpInput s = true)

/-- The device accepts a status write, where it listens (rule R246). -/
def AcceptsStatusWrite (s : State) : Prop :=
  Listens 0x01#8 s.dev ∧ (s.params.devWrsrIsWrite = true → s.dev.wel = true) ∧ SrwdAllows s

/-- The device accepts an erase, by an instruction with this first byte, at an address (rules R252, R254). -/
def AcceptsErase (op : Byte) (a : Nat) (s : State) : Prop :=
  Listens op s.dev ∧ s.dev.wel = true ∧ (s.params.devEraseHonoursBp = true → protectedAt a s.dev.bp = false)

/-- The device accepts a chip erase (rule R256). -/
def AcceptsChipErase (s : State) : Prop :=
  Listens 0xC7#8 s.dev ∧ s.dev.wel = true ∧ (s.params.devEraseHonoursBp = true → s.dev.bp = 0)

/-- The bytes received are all draws (rules R234, R250, R258, R260). -/
def AllDraws (c : Nat) (rx : List Byte) : Prop :=
  ∀ i, i < rx.length → rx.getD i 0 = Config.draw c i

/-! The invariant. -/

/-- The device's own: the array in canonical form, WIP exactly while a cycle is pending (rule R240), the pending cycle
inside the array, no cycle in deep power-down. -/
def DeviceOk (d : Device) : Prop :=
  Memory.wf d.arr ∧ d.wip = d.pending.isSome ∧ (∀ y, d.pending = some y → cycleInArray y = true)
    ∧ (d.dpd = true → d.pending = none)

/-- The WRITE registers while a sub-write is under way (rules R102, R522, R526): the payload is at most the array, what
is left lies in range and is the rest of the payload, and the sub-write lies in one page and reaches its end or the
payload's. -/
def WriteRegsOk (s : State) : Prop :=
  s.seq.off.toNat + s.seq.rem.toNat = s.cmd.data.length ∧ s.cmd.data.length ≤ addrLimit
    ∧ s.seq.a.toNat + s.seq.rem.toNat ≤ addrLimit ∧ 1 ≤ s.seq.n.toNat ∧ s.seq.n.toNat ≤ s.seq.rem.toNat
    ∧ pageOff s.seq.a.toNat + s.seq.n.toNat ≤ pageSize
    ∧ (s.seq.n.toNat = s.seq.rem.toNat ∨ pageOff (s.seq.a.toNat + s.seq.n.toNat) = 0)

/-- `POLLS` stays below a `POLL_LIMIT` of at least 1 (rules R17, R642). -/
def PollsOk (s : State) : Prop :=
  ∀ limit, s.params.pollLimit = some limit → 1 ≤ limit → s.seq.polls < limit

/-- The operands the block gives an SPI instruction: a READ or WRITE lies in the array, a WRITE in one page
(rules R401, R402); nothing more of the others. -/
def BlockOperands : Instr → Prop
  | .spiRead a n => a.toNat + n ≤ addrLimit
  | .spiWrite a d => 1 ≤ d.length ∧ a.toNat + d.length ≤ addrLimit ∧ page a.toNat = page (a.toNat + d.length - 1)
  | .spiWren => True
  | .spiWrdi => True
  | .spiRdsr => True
  | .spiWrsr _ => True
  | .spiPe _ => True
  | .spiSe _ => True
  | .spiCe => True
  | .spiRdid => True
  | .spiDpd => True
  | .cmdInit => False
  | .cmdRead _ _ => False
  | .cmdWrite _ _ => False
  | .cmdReadStatus => False
  | .cmdWriteStatus _ => False
  | .cmdGetWel => False
  | .cmdSetWel _ => False
  | .cmdGetWip => False
  | .cmdGetBp => False
  | .cmdSetBp _ => False
  | .cmdGetSrwd => False
  | .cmdSetSrwd _ => False
  | .cmdErasePage _ => False
  | .cmdEraseSector _ => False
  | .cmdEraseChip => False
  | .cmdDeepPowerDown => False
  | .cmdWake => False
  | .cmdReserved _ => False

/-- A frame the block may issue: one of rule R301, with such operands. -/
def FrameOk (tx : List Byte) : Prop :=
  ∃ i, decodeFrame tx = .ok i ∧ BlockOperands i

/-- What holds where `PHASE` stands. -/
def PhaseOk (s : State) : Prop :=
  match s.phase with
  | .idle => True
  | .decode => True
  | .sleep .subWrite => WriteRegsOk s ∧ PollsOk s
  | .sleep .done => PollsOk s
  | .xfer tx (.poll .subWrite) => tx = encRdsr s.params ∧ WriteRegsOk s ∧ PollsOk s
  | .xfer tx (.poll .done) => tx = encRdsr s.params ∧ PollsOk s
  | .xfer tx .subWrite => tx = chunkFrame s ∧ WriteRegsOk s
  | .xfer tx .thenPoll => ∃ v, tx = encWrsr v
  | .xfer tx .finish => FrameOk tx

/-- The machine's invariant: the device's, `BUSY` exactly while a command runs (rules R101, R106), the phase's, and both
control lines inactive (rule R122). -/
def Inv (s : State) : Prop :=
  DeviceOk s.dev ∧ (s.busy = true ↔ s.phase ≠ .idle) ∧ PhaseOk s ∧ s.holdN = true ∧ s.wpN = true

/-- Every transaction issued so far has as many bytes received as sent, and was a frame the block may issue (rule R320). -/
def TraceOk (s : State) : Prop :=
  ∀ x ∈ s.trace, x.rx.length = x.tx.length ∧ FrameOk x.tx

/-! The chunks of a WRITE. -/

/-- The sub-writes `(start, size)` of `k` bytes at `a`, by the page boundaries alone (rule R526); `fuel` at least `k`. -/
def chunksFrom : Nat → Nat → Nat → List (Nat × Nat)
  | 0, _, _ => []
  | fuel + 1, a, k =>
    if k = 0 then []
    else
      let n := min (pageSize - pageOff a) k
      (a, n) :: chunksFrom fuel (a + n) (k - n)

/-- The sub-writes of `k` bytes at `a`. -/
def chunks (a k : Nat) : List (Nat × Nat) := chunksFrom k a k

/-- The frame of one sub-write of a payload that starts at `a`. -/
def subWriteFrame (a : Nat) (data : List Byte) (c : Nat × Nat) : List Byte :=
  encWrite (BitVec.ofNat 24 c.1) ((data.drop (c.1 - a)).take c.2)

/-- The frames of a WRITE whose every poll takes one reading: `P, W1, P, …, Wc, P` (rule R524). -/
def writeFrames (p : Params) (a : Nat) (data : List Byte) : List (List Byte) :=
  encRdsr p :: (chunks a data.length).flatMap fun c => [subWriteFrame a data c, encRdsr p]

/-- The frames sent, oldest first. -/
def sentFrames (s : State) : List (List Byte) := s.trace.map fun x => x.tx

/-- The device answers status reads, runs no cycle, and has the write-enable latch at `wel`. -/
def QuietDevice (wel : Bool) (d : Device) : Prop :=
  d.dpd = false ∧ d.wip = false ∧ d.pending = none ∧ d.wel = wel

/-- The schedule S0 of 95_test_vectors.md over `c` accepted sub-writes: the frame, DevComplete, the poll. -/
def scheduleS0 : Nat → List Turn
  | 0 => []
  | c + 1 => .block :: .device :: .block :: scheduleS0 c

end Sys2Proof.Machine
end

