-- ==== Sys2Proof/Certificates/Slice0/Obligations.lean ====
section
/-! DEFINITION. The statements for the provers. -/

open Sys2Proof Sys2Proof.Machine

/-! Encodings. -/

/-- 30_encoding.md sections 1 and 4, 40_encoder.md: decoding the words of a well-formed instruction of either space gives
it back, with every operand, whatever the fill and dummy bytes are. -/
def Obligations.DecodeInvertsEncode : Prop :=
  ∀ (p : Params) (i : Instr), wellFormed i = true → decode (encode p i) = .ok i

/-- 95_test_vectors.md V01 to V11 and 30_encoding.md section 4: the eleven words of the encoder's vectors decode to their
instructions, and the codes of SET_BP, ERASE_PAGE and the first reserved one to their commands. -/
def Obligations.SpecWordsDecode : Prop :=
  decodeFrame [0x03#8, 0x00#8, 0x01#8, 0xF0#8, 0x00#8, 0x00#8] = .ok (.spiRead 0x1F0#24 2)
    ∧ decodeFrame [0x02#8, 0x01#8, 0xFF#8, 0xFF#8, 0xAB#8] = .ok (.spiWrite 0x1FFFF#24 [0xAB#8])
    ∧ decodeFrame [0x06#8] = .ok .spiWren
    ∧ decodeFrame [0x04#8] = .ok .spiWrdi
    ∧ decodeFrame [0x05#8, 0x00#8] = .ok .spiRdsr
    ∧ decodeFrame [0x01#8, 0x8C#8] = .ok (.spiWrsr 0x8C#8)
    ∧ decodeFrame [0x42#8, 0x00#8, 0x12#8, 0x34#8] = .ok (.spiPe 0x1234#24)
    ∧ decodeFrame [0xD8#8, 0x01#8, 0x80#8, 0x00#8] = .ok (.spiSe 0x18000#24)
    ∧ decodeFrame [0xC7#8] = .ok .spiCe
    ∧ decodeFrame [0xAB#8, 0x00#8, 0x00#8, 0x00#8, 0x00#8] = .ok .spiRdid
    ∧ decodeFrame [0xB9#8] = .ok .spiDpd
    ∧ decodeCommand ⟨0x09#5, 0, 0, 0x01#8, []⟩ = .cmdSetBp 0x01#8
    ∧ decodeCommand ⟨0x0C#5, 0x1234#32, 0, 0, []⟩ = .cmdErasePage 0x1234#32
    ∧ decodeCommand ⟨0x11#5, 0, 0, 0, []⟩ = .cmdReserved 0x11#5

/-- 30_encoding.md section 2: the address field is the three bytes of the address, most significant first, and the
device's reading of three bytes is its inverse. -/
def Obligations.AddressFieldIsBigEndian : Prop :=
  ∀ a : Addr24,
    enc24 a = [BitVec.ofNat 8 (a.toNat / 65536), BitVec.ofNat 8 (a.toNat / 256), BitVec.ofNat 8 a.toNat]
      ∧ ∀ b2 b1 b0 : Byte, enc24 (dec24 b2 b1 b0) = [b2, b1, b0]
        ∧ (dec24 b2 b1 b0).toNat = b2.toNat * 65536 + b1.toNat * 256 + b0.toNat

/-- Rule R334: every 5-bit code is one of the seventeen commands or reserved, whatever the operand registers hold; the
decoded command has the code it was decoded from. -/
def Obligations.CommandDecodingIsTotal : Prop :=
  ∀ (p : Params) (r : CommandRegs),
    isSpi (decodeCommand r) = false
      ∧ (∃ q, encode p (decodeCommand r) = .command q ∧ q.op = r.op)
      ∧ ((∃ op, decodeCommand r = .cmdReserved op) ↔ 0x11 ≤ r.op.toNat)

/-- 30_encoding.md sections 1 and 3: a frame decodes only where its first byte is one of the eleven, and then to an SPI
instruction whose own frame has the same first byte and length. -/
def Obligations.OnlyElevenOpcodesDecode : Prop :=
  ∀ (p : Params) (op : Byte) (rest : List Byte) (i : Instr), decodeFrame (op :: rest) = .ok i →
    op ∈ [0x03#8, 0x02#8, 0x06#8, 0x04#8, 0x05#8, 0x01#8, 0x42#8, 0xD8#8, 0xC7#8, 0xAB#8, 0xB9#8]
      ∧ isSpi i = true
      ∧ ∃ rest', encode p i = .frame (op :: rest') ∧ rest'.length = rest.length

/-! The step. -/

/-- 10_state.md section 2, 00_scope.md section 2: where the block moves, an accepted command is executed as decoded
from the command registers, and a frame at PHASE is executed as the instruction it decodes to, after which the command
goes on with the answer. Whose turn it is comes from the environment's list, the model's form of the open order of
steps (log entry 11). -/
def Obligations.StepRunsDecodedInstruction : Prop :=
  ∀ s t : State, takeTurn s = (.block, t) →
    (t.phase = .decode → step s = exec (decodeCommand t.cmd) t)
      ∧ ∀ tx k i, t.phase = .xfer tx k → decodeFrame tx = .ok i →
        step s = match exec i t with
          | .next u => .next (resume k u)
          | .fault f => .fault f
          | .refused r => .refused r

/-- 10_state.md section 3: with no command running, the block accepts the first offer: the registers are sampled (for a
WRITE, CMD_LEN is the payload's length), BUSY rises, nothing else changes and no transaction is issued; with no offer
it waits. The model's
choices: acceptance is a step of its own (log entry 12), RSP_BYTE and RSP_DATA are as before (log entry 16), and CMD_LEN of
a WRITE is the payload's length (log entry 17). -/
def Obligations.IdleAcceptsFirstOffer : Prop :=
  ∀ s t : State, takeTurn s = (.block, t) → t.phase = .idle → t.busy = false →
    (t.inputs = [] → step s = .next t)
      ∧ ∀ r rest, t.inputs = r :: rest →
        ∃ u, step s = .next u ∧ u.busy = true ∧ u.phase = .decode ∧ u.inputs = rest
          ∧ u.cmd.op = r.op ∧ u.cmd.addr = r.addr ∧ u.cmd.arg = r.arg ∧ u.cmd.data = r.data
          ∧ u.cmd.len = (if r.op = 0x02#5 then BitVec.ofNat 32 r.data.length else r.len)
          ∧ u.st = t.st ∧ u.seq = t.seq ∧ u.rspCode = t.rspCode ∧ KeepsResponse t u ∧ IssuesNothing t u
          ∧ u.holdN = t.holdN ∧ u.wpN = t.wpN ∧ u.params = t.params ∧ u.sched = t.sched

/-- 10_state.md section 3: while BUSY is 1 no step takes an offer. -/
def Obligations.BusyHoldsOffers : Prop :=
  ∀ s t : State, s.busy = true → step s = .next t → t.inputs = s.inputs

/-- 00_scope.md section 2: a step issues at most one transaction, and no transaction already issued is undone. -/
def Obligations.StepIssuesAtMostOneTransaction : Prop :=
  ∀ s t : State, step s = .next t → t.trace = s.trace ∨ ∃ x, t.trace = s.trace ++ [x]

/-- 70_reset_and_hazards.md section 1 and 10_state.md section 10, whenever the environment resets the block: ST, PHASE, BUSY, RSP_CODE and the
control lines it has take their reset values, no transaction is issued, and the device is left alone. The reset as a
turn of the environment's list is the model's form (log entry 11). -/
def Obligations.ResetTurnResetsBlockOnly : Prop :=
  ∀ s t : State, takeTurn s = (.reset, t) →
    ∃ u, step s = .next u ∧ u.st = .uninit ∧ u.phase = .idle ∧ u.busy = false ∧ u.rspCode = .ok
      ∧ (s.params.hasControlLines = true → u.holdN = true ∧ u.wpN = true)
      ∧ (s.params.hasControlLines = false → u.holdN = s.holdN ∧ u.wpN = s.wpN)
      ∧ IssuesNothing s u ∧ u.params = s.params ∧ u.inputs = s.inputs

/-! The SPI instructions. -/

/-- 40_encoder.md: each of the eleven SPI instructions issues exactly its own frame in one transaction and receives as many
bytes; it changes no register of the block, no byte of the array, and neither BP, SRWD nor the reserved bits. -/
def Obligations.SpiInstructionIssuesItsFrame : Prop :=
  ∀ (i : Instr) (s : State), isSpi i = true →
    ∃ tx t, encode s.params i = .frame tx ∧ exec i s = .next t ∧ Issues tx s t
      ∧ KeepsEnvironment s t ∧ KeepsPorts s t ∧ KeepsSequencer s t ∧ KeepsArray s t ∧ KeepsProtection s t

/-- 20_memory.md Part 2, READ: where the device listens, the bytes after the first four are the array's from the address
on, wrapping at the top, and nothing changes. -/
def Obligations.SpiReadStreamsArray : Prop :=
  ∀ (s : State) (addr : Addr24) (n : Nat), Listens 0x03#8 s.dev →
    ∃ t, exec (.spiRead addr n) s = .next t ∧ Issues (encRead s.params addr n) s t ∧ t.dev = s.dev
      ∧ t.rx.drop 4 = (List.range n).map fun j => Memory.read s.dev.arr ((addr.toNat + j) % addrLimit)

/-- 20_memory.md Part 2, WRITE: where the device listens, it starts a write cycle exactly when there is a payload, WEL is
1 and the address is unprotected; else nothing changes. -/
def Obligations.SpiWriteStartsCycle : Prop :=
  ∀ (s : State) (addr : Addr24) (data : List Byte), Listens 0x02#8 s.dev →
    ∃ t, exec (.spiWrite addr data) s = .next t ∧ Issues (encWrite addr data) s t
      ∧ (data ≠ [] ∧ s.dev.wel = true ∧ protectedAt (addr.toNat % addrLimit) s.dev.bp = false →
          t.dev = { s.dev with pending := some (.write (addr.toNat % addrLimit) data), wip := true })
      ∧ (¬(data ≠ [] ∧ s.dev.wel = true ∧ protectedAt (addr.toNat % addrLimit) s.dev.bp = false) → t.dev = s.dev)

/-- Rule R242: WREN sets WEL and WRDI clears it, in a frame of one byte or more, and neither starts a cycle. -/
def Obligations.LatchInstructionsSetAndClearWel : Prop :=
  (∀ s : State, Listens 0x06#8 s.dev →
      ∃ t, exec .spiWren s = .next t ∧ Issues [0x06#8] s t ∧ t.dev = { s.dev with wel := true })
    ∧ (∀ s : State, Listens 0x04#8 s.dev →
      ∃ t, exec .spiWrdi s = .next t ∧ Issues [0x04#8] s t ∧ t.dev = { s.dev with wel := false })
    ∧ (∀ (s : State) (rest : List Byte), Listens 0x06#8 s.dev →
      (exchange (0x06#8 :: rest) s).dev = { s.dev with wel := true })
    ∧ (∀ (s : State) (rest : List Byte), Listens 0x04#8 s.dev →
      (exchange (0x04#8 :: rest) s).dev = { s.dev with wel := false })

/-- Rule R244: out of deep power-down, RDSR answers the status byte in every byte after the first, also while a cycle
runs, and changes nothing. -/
def Obligations.RdsrAnswersStatus : Prop :=
  (∀ s : State, s.dev.dpd = false →
      ∃ t, exec .spiRdsr s = .next t ∧ Issues [0x05#8, s.params.fillByte] s t ∧ t.dev = s.dev
        ∧ t.rx.getD 1 0 = statusByte s.dev)
    ∧ ∀ (s : State) (rest : List Byte) (i : Nat), s.dev.dpd = false → 1 ≤ i → i ≤ rest.length →
      (exchange (0x05#8 :: rest) s).rx.getD i 0 = statusByte s.dev ∧ (exchange (0x05#8 :: rest) s).dev = s.dev

/-- 20_memory.md Part 2, WRSR: an accepted status write starts a cycle with the byte sent; a refused one changes nothing. -/
def Obligations.WrsrStartsStatusCycle : Prop :=
  ∀ (s : State) (v : Byte),
    ∃ t, exec (.spiWrsr v) s = .next t ∧ Issues [0x01#8, v] s t
      ∧ (AcceptsStatusWrite s → t.dev = { s.dev with pending := some (.statusWrite v), wip := true })
      ∧ (¬AcceptsStatusWrite s → t.dev = s.dev)

/-- Rule R248: where no cycle runs, RDID is taken also in deep power-down, answers the identity in byte 4 whatever the
dummy bytes are, and leaves deep power-down. -/
def Obligations.RdidWakesAndIdentifies : Prop :=
  (∀ s : State, s.dev.wip = false →
      ∃ t, exec .spiRdid s = .next t
        ∧ Issues [0xAB#8, s.params.rdidDummy, s.params.rdidDummy, s.params.rdidDummy, s.params.fillByte] s t
        ∧ t.rx.getD 4 0 = s.params.devId ∧ t.dev = { s.dev with dpd := false })
    ∧ ∀ (s : State) (d2 d1 d0 f : Byte) (rest : List Byte), s.dev.wip = false →
      let t := exchange (0xAB#8 :: d2 :: d1 :: d0 :: f :: rest) s
      t.rx.getD 4 0 = s.params.devId ∧ t.dev = { s.dev with dpd := false }

/-- Rule R250: DPD enters deep power-down; there every frame except RDID is ignored and all its bytes received are draws. -/
def Obligations.DeepPowerDownIgnoresFrames : Prop :=
  (∀ s : State, Listens 0xB9#8 s.dev →
      ∃ t, exec .spiDpd s = .next t ∧ Issues [0xB9#8] s t ∧ t.dev = { s.dev with dpd := true })
    ∧ ∀ (s : State) (op : Byte) (rest : List Byte), s.dev.dpd = true → op ≠ 0xAB#8 →
      (exchange (op :: rest) s).dev = s.dev ∧ AllDraws s.fresh (exchange (op :: rest) s).rx

/-- 20_memory.md Part 2, PE and SE: an accepted erase starts the cycle of the page or sector that holds the address taken
modulo 0x20000; one not accepted changes nothing. -/
def Obligations.EraseInstructionsStartCycle : Prop :=
  ∀ (s : State) (addr : Addr24),
    (∃ t, exec (.spiPe addr) s = .next t ∧ Issues (encPe addr) s t
      ∧ (AcceptsErase 0x42#8 (addr.toNat % addrLimit) s →
          t.dev = { s.dev with pending := some (.pageErase (addr.toNat % 0x20000 / 256)), wip := true })
      ∧ (¬AcceptsErase 0x42#8 (addr.toNat % addrLimit) s → t.dev = s.dev))
    ∧ ∃ t, exec (.spiSe addr) s = .next t ∧ Issues (encSe addr) s t
      ∧ (AcceptsErase 0xD8#8 (addr.toNat % addrLimit) s →
          t.dev = { s.dev with pending := some (.sectorErase (addr.toNat % 0x20000 / 32768)), wip := true })
      ∧ (¬AcceptsErase 0xD8#8 (addr.toNat % addrLimit) s → t.dev = s.dev)

/-- 20_memory.md Part 2, CE: accepted with WEL = 1 and, where erases honour BP, BP = 0. -/
def Obligations.ChipEraseStartsCycle : Prop :=
  ∀ s : State,
    ∃ t, exec .spiCe s = .next t ∧ Issues [0xC7#8] s t
      ∧ (AcceptsChipErase s → t.dev = { s.dev with pending := some .chipErase, wip := true })
      ∧ (¬AcceptsChipErase s → t.dev = s.dev)

/-- 20_memory.md Part 2: while WIP is 1, every instruction except RDSR is ignored: no state of the device changes and the bytes
received are draws. The spec marks the rule as general knowledge. -/
def Obligations.BusyDeviceIgnoresFrames : Prop :=
  ∀ (s : State) (op : Byte) (rest : List Byte), s.dev.wip = true → op ≠ 0x05#8 →
    (exchange (op :: rest) s).dev = s.dev ∧ AllDraws s.fresh (exchange (op :: rest) s).rx

/-- 20_memory.md Part 2: an instruction byte outside the eleven, or a frame shorter than its instruction needs, is ignored, with
draws received. -/
def Obligations.UnknownOrShortFramesIgnored : Prop :=
  ∀ (s : State) (tx : List Byte),
    (tx = [] ∨ ∃ op rest, tx = op :: rest ∧
      ((op ∉ [0x03#8, 0x02#8, 0x06#8, 0x04#8, 0x05#8, 0x01#8, 0x42#8, 0xD8#8, 0xC7#8, 0xAB#8, 0xB9#8])
        ∨ ∃ len, minFrameLength op = some len ∧ tx.length < len)) →
    (exchange tx s).dev = s.dev ∧ AllDraws s.fresh (exchange tx s).rx

/-! DevComplete. -/

/-- 20_memory.md Part 2, the end of a write cycle: each byte goes to its address, the offset wrapping within the page and a
later byte overwriting an earlier one; every byte outside the page, and every byte of it none is meant for, is unchanged;
WEL is cleared if DEV_WEL_AUTOCLEAR. -/
def Obligations.DevCompleteWritesPage : Prop :=
  ∀ (s t : State) (a : Nat) (d : List Byte), takeTurn s = (.device, t) → Memory.wf s.dev.arr →
    s.dev.pending = some (.write a d) → a < addrLimit →
    ∃ u, step s = .next u ∧ u.dev.pending = none ∧ u.dev.wip = false
      ∧ u.dev.wel = (s.dev.wel && !s.params.devWelAutoclear) ∧ KeepsProtection s u ∧ u.dev.dpd = s.dev.dpd
      ∧ (∀ x, Memory.read u.dev.arr x =
          let j := (x + 256 - a % 256) % 256
          if x / 256 = a / 256 ∧ j < d.length then d.getD (j + 256 * ((d.length - 1 - j) / 256)) 0
          else Memory.read s.dev.arr x)
      ∧ KeepsPorts s u ∧ KeepsSequencer s u ∧ u.trace = s.trace ∧ u.rx = s.rx ∧ u.params = s.params
      ∧ u.inputs = s.inputs

/-- 20_memory.md Part 2, the end of an erase cycle: every byte of the page, the sector or the whole array becomes
ERASED_BYTE and every other byte is unchanged; WEL is cleared if DEV_WEL_AUTOCLEAR. -/
def Obligations.DevCompleteErases : Prop :=
  ∀ (s t : State) (y : Cycle) (base n : Nat), takeTurn s = (.device, t) → s.dev.pending = some y →
    ((∃ p, p < 512 ∧ y = .pageErase p ∧ base = p * 256 ∧ n = 256)
      ∨ (∃ k, k < 4 ∧ y = .sectorErase k ∧ base = k * 32768 ∧ n = 32768)
      ∨ (y = .chipErase ∧ base = 0 ∧ n = 0x20000)) →
    ∃ u, step s = .next u ∧ u.dev.pending = none ∧ u.dev.wip = false
      ∧ u.dev.wel = (s.dev.wel && !s.params.devWelAutoclear) ∧ KeepsProtection s u ∧ u.dev.dpd = s.dev.dpd
      ∧ (∀ x, Memory.read u.dev.arr x =
          if base ≤ x ∧ x < base + n then s.params.erasedByte else Memory.read s.dev.arr x)
      ∧ KeepsPorts s u ∧ KeepsSequencer s u ∧ u.trace = s.trace ∧ u.rx = s.rx ∧ u.params = s.params
      ∧ u.inputs = s.inputs

/-- 20_memory.md Part 2, the end of a status write: BP and SRWD come from the byte sent, the reserved bits and the array do
not change, and WEL is cleared if DEV_WRSR_IS_WRITE. -/
def Obligations.DevCompleteWritesStatus : Prop :=
  ∀ (s t : State) (v : Byte), takeTurn s = (.device, t) → s.dev.pending = some (.statusWrite v) →
    ∃ u, step s = .next u ∧ u.dev.pending = none ∧ u.dev.wip = false
      ∧ u.dev.bp = v.extractLsb' 2 2 ∧ u.dev.srwd = v.getLsbD 7 ∧ u.dev.rsv = s.dev.rsv
      ∧ u.dev.wel = (s.dev.wel && !s.params.devWrsrIsWrite) ∧ u.dev.dpd = s.dev.dpd ∧ KeepsArray s u
      ∧ KeepsPorts s u ∧ KeepsSequencer s u ∧ u.trace = s.trace ∧ u.rx = s.rx ∧ u.params = s.params
      ∧ u.inputs = s.inputs

/-! Errors and checks. -/

/-- Rule R500: the range predicate on mathematical integers, and its four examples. -/
def Obligations.RangePredicateOnIntegers : Prop :=
  (∀ (a : Int) (n : Nat), inRange a n = true ↔ ¬(a < 0 ∨ a + n > 0x20000))
    ∧ inRange 0x20000 0 = true ∧ inRange 0x1FFFF 1 = true ∧ inRange 0x1FFFF 2 = false ∧ inRange (-1) 0 = false

/-- 10_state.md section 5: level 0 protects nothing, 1 the top sector, 2 the top two sectors, 3 everything; so the
protected addresses are always a suffix of the address space, and a higher level protects what a lower one does. At level
3 the model follows the level list, not the section's predicate, which leaves sector 0 out (log entry 15). -/
def Obligations.ProtectionLevelsAreTopSectors : Prop :=
  (∀ a : Nat, a < 0x20000 →
    (protectedAt a 0 = false) ∧ (protectedAt a 1 = true ↔ 0x18000 ≤ a) ∧ (protectedAt a 2 = true ↔ 0x10000 ≤ a)
      ∧ (protectedAt a 3 = true))
    ∧ (∀ (a b : Nat) (bp : BitVec 2), a ≤ b → protectedAt a bp = true → protectedAt b bp = true)
    ∧ ∀ (a : Nat) (bp bp' : BitVec 2), bp.toNat ≤ bp'.toNat → protectedAt a bp = true → protectedAt a bp' = true

/-- 60_exceptions.md section 1: before an INIT has succeeded, every command except INIT ends NOT_READY with no transaction,
whatever its operands. -/
def Obligations.CommandsNotReadyBeforeInit : Prop :=
  ∀ (i : Instr) (s : State), isSpi i = false → i ≠ .cmdInit → (∀ op, i ≠ .cmdReserved op) → s.st = .uninit →
    ∃ t, exec i s = .next t ∧ Ends .notReady t ∧ IssuesNothing s t ∧ KeepsRest s t

/-- 60_exceptions.md section 1: a reserved code is ILLEGAL_COMMAND whatever ST is, and so, when ready, is a non-zero unused
bit of CMD_ARG for SET_BP (bits 7:2), SET_SRWD and SET_WEL (bits 7:1); no transaction is issued. -/
def Obligations.IllegalCommandsIssueNothing : Prop :=
  (∀ (s : State) (op : BitVec 5),
      ∃ t, exec (.cmdReserved op) s = .next t ∧ Ends .illegalCommand t ∧ IssuesNothing s t ∧ KeepsRest s t)
    ∧ (∀ (s : State) (arg : Byte), s.st = .ready → 4 ≤ arg.toNat →
      ∃ t, exec (.cmdSetBp arg) s = .next t ∧ Ends .illegalCommand t ∧ IssuesNothing s t ∧ KeepsRest s t)
    ∧ (∀ (s : State) (arg : Byte), s.st = .ready → 2 ≤ arg.toNat →
      (∃ t, exec (.cmdSetSrwd arg) s = .next t ∧ Ends .illegalCommand t ∧ IssuesNothing s t ∧ KeepsRest s t)
        ∧ ∃ t, exec (.cmdSetWel arg) s = .next t ∧ Ends .illegalCommand t ∧ IssuesNothing s t ∧ KeepsRest s t)

/-- 42_read_write.md section 1: a READ or WRITE outside the array, and an erase where ERASE_RANGE_CHECK, end OUT_OF_RANGE
before any transaction. -/
def Obligations.OutOfRangeIssuesNothing : Prop :=
  ∀ (s : State) (addr len : Word32) (data : List Byte), s.st = .ready →
    ((addr.toInt < 0 ∨ addr.toInt + len.toNat > 0x20000) →
      ∃ t, exec (.cmdRead addr len) s = .next t ∧ Ends .outOfRange t ∧ IssuesNothing s t ∧ KeepsRest s t)
    ∧ ((addr.toInt < 0 ∨ addr.toInt + data.length > 0x20000) →
      ∃ t, exec (.cmdWrite addr data) s = .next t ∧ Ends .outOfRange t ∧ IssuesNothing s t ∧ KeepsRest s t)
    ∧ (s.params.eraseRangeCheck = true → (addr.toInt < 0 ∨ addr.toInt + 1 > 0x20000) →
      (∃ t, exec (.cmdErasePage addr) s = .next t ∧ Ends .outOfRange t ∧ IssuesNothing s t ∧ KeepsRest s t)
        ∧ ∃ t, exec (.cmdEraseSector addr) s = .next t ∧ Ends .outOfRange t ∧ IssuesNothing s t ∧ KeepsRest s t)

/-! The commands. -/

/-- 41_init.md: INIT drives the lines inactive, issues one RDID whatever ST is, and compares byte 4: equal ends OK with
ST READY and the identity in RSP_BYTE, different ends INITIALIZATION with ST UNINIT. Where no cycle runs the byte is
the device's identity and the device is awake after. That RSP_DATA stays as it was where INIT ends OK is the model's
reading (log entry 16). -/
def Obligations.InitChecksIdentity : Prop :=
  ∀ s : State,
    ∃ t, exec .cmdInit s = .next t ∧ Issues (encRdid s.params) s t
      ∧ (t.rx.getD 4 0 = s.params.expectedSignature →
          Ends .ok t ∧ t.st = .ready ∧ t.rspByte = t.rx.getD 4 0 ∧ t.rspData = s.rspData)
      ∧ (t.rx.getD 4 0 ≠ s.params.expectedSignature → Ends .initialization t ∧ t.st = .uninit)
      ∧ (s.params.hasControlLines = true → t.holdN = true ∧ t.wpN = true)
      ∧ (s.params.hasControlLines = false → t.holdN = s.holdN ∧ t.wpN = s.wpN)
      ∧ (s.dev.wip = false → t.rx.getD 4 0 = s.params.devId ∧ t.dev = { s.dev with dpd := false })
      ∧ (s.dev.wip = true → t.dev = s.dev)
      ∧ t.cmd = s.cmd ∧ KeepsEnvironment s t

/-- 42_read_write.md section 2: a READ in range is one transaction, ends OK, and returns the bytes received after the
first four, as many as CMD_LEN; where the device listens they are the array's bytes. Nothing of the device changes.
That RSP_BYTE stays as it was is the model's reading (log entry 16). -/
def Obligations.ReadReturnsRequestedBytes : Prop :=
  ∀ (s : State) (addr len : Word32), s.st = .ready → 0 ≤ addr.toInt → addr.toInt + len.toNat ≤ 0x20000 →
    ∃ t, exec (.cmdRead addr len) s = .next t ∧ Issues (encRead s.params (addr.setWidth 24) len.toNat) s t
      ∧ Ends .ok t ∧ t.rspData = t.rx.drop 4 ∧ t.rspData.length = len.toNat ∧ t.rspByte = s.rspByte ∧ t.dev = s.dev
      ∧ (Listens 0x03#8 s.dev →
          t.rspData = (List.range len.toNat).map fun j => Memory.read s.dev.arr (addr.toNat + j))
      ∧ KeepsRest s t

/-- 42_read_write.md section 3 and 43_status.md section 5: a WRITE in range keeps its payload in CMD_DATA and issues the
first RDSR of the poll before its first sub-write. On a reading with WIP = 0 it ends OK where the payload is empty, and
else stands before the first sub-write, which reaches the next page boundary or the payload's end; on one with WIP = 1 it
sleeps, or ends DEVICE_TIMEOUT where POLL_LIMIT is at most 1. Where it goes on, A, OFF, REM and, for a payload that is not
empty, N are those of the first sub-write, POLLS counts the busy reading under a limit, and RSP_CODE is as before. The
model's choices: CMD_DATA as the payload's place while the command runs (log entry 17), POLLS at 0 with no limit (log entry
18), RSP_BYTE and RSP_DATA as before while the command runs (log entry 16). -/
def Obligations.WriteBeginsWithPoll : Prop :=
  ∀ (s : State) (addr : Word32) (data : List Byte), s.st = .ready → 0 ≤ addr.toInt →
    addr.toInt + data.length ≤ 0x20000 →
    let n := min (256 - addr.toNat % 256) data.length
    ∃ t, exec (.cmdWrite addr data) s = .next t ∧ Issues (encRdsr s.params) s t ∧ t.dev = s.dev
      ∧ (wipOf (t.rx.getD 1 0) = false → data = [] → Ends .ok t)
      ∧ (wipOf (t.rx.getD 1 0) = false → data ≠ [] →
          StandsBefore (encWrite (addr.setWidth 24) (data.take n)) .subWrite t ∧ t.seq.polls = 0)
      ∧ (wipOf (t.rx.getD 1 0) = true → (∃ l, s.params.pollLimit = some l ∧ l ≤ 1) → Ends .deviceTimeout t)
      ∧ (wipOf (t.rx.getD 1 0) = true → (s.params.pollLimit = none ∨ ∃ l, s.params.pollLimit = some l ∧ 2 ≤ l) →
          t.busy = true ∧ t.phase = .sleep (if data = [] then .done else .subWrite)
            ∧ t.seq.polls = (if s.params.pollLimit = none then 0 else 1))
      ∧ (t.phase ≠ .idle →
          t.seq.a.toNat = addr.toNat ∧ t.seq.off.toNat = 0 ∧ t.seq.rem.toNat = data.length
            ∧ (data ≠ [] → t.seq.n.toNat = n) ∧ t.seq.sr = s.seq.sr ∧ t.rspCode = s.rspCode ∧ KeepsResponse s t)
      ∧ t.cmd = { s.cmd with data := data } ∧ t.holdN = s.holdN ∧ t.wpN = s.wpN ∧ t.st = s.st ∧ KeepsEnvironment s t

/-- 42_read_write.md section 3: issuing a sub-write advances A, OFF and REM by N; then the poll before the next sub-write,
of a whole page or what is left, begins, or the final poll where nothing is left. That RSP_BYTE and RSP_DATA are as before
while the command runs is the model's reading (log entry 16). -/
def Obligations.SubWriteAdvances : Prop :=
  ∀ s t : State, takeTurn s = (.block, t) → Inv s → t.phase = .xfer (chunkFrame t) .subWrite →
    ∃ u, step s = .next u ∧ Issues (chunkFrame t) s u
      ∧ u.seq.a.toNat = s.seq.a.toNat + s.seq.n.toNat ∧ u.seq.off.toNat = s.seq.off.toNat + s.seq.n.toNat
      ∧ u.seq.rem.toNat = s.seq.rem.toNat - s.seq.n.toNat ∧ u.seq.sr = s.seq.sr
      ∧ (s.seq.n.toNat = s.seq.rem.toNat → StartsPoll .done u)
      ∧ (s.seq.n.toNat ≠ s.seq.rem.toNat →
          StartsPoll .subWrite u ∧ u.seq.n.toNat = min 256 (s.seq.rem.toNat - s.seq.n.toNat))
      ∧ KeepsPorts s u ∧ u.st = s.st ∧ KeepsResponse s u ∧ u.rspCode = s.rspCode ∧ KeepsArray s u ∧ KeepsProtection s u

/-- 43_status.md section 5: a poll's RDSR with WIP = 0 ends the poll; with WIP = 1 it is counted against POLL_LIMIT,
and the poll sleeps or, at the limit, the command ends DEVICE_TIMEOUT. The device does not change. Where the poll
goes on or a sub-write follows, RSP_CODE is as before. The model's choices: with no limit POLLS stays as it was (log entry
18), and RSP_BYTE and RSP_DATA are as before while the command runs (log entry 16). -/
def Obligations.PollTestsBitZero : Prop :=
  ∀ (s t : State) (e : PollEnd), takeTurn s = (.block, t) → t.phase = .xfer (encRdsr t.params) (.poll e) →
    ∃ u, step s = .next u ∧ Issues (encRdsr s.params) s u ∧ u.dev = s.dev
      ∧ (wipOf (u.rx.getD 1 0) = false →
          (e = .done → Ends .ok u)
            ∧ (e = .subWrite → StandsBefore (chunkFrame s) .subWrite u ∧ u.seq = s.seq))
      ∧ (wipOf (u.rx.getD 1 0) = true →
          (s.params.pollLimit = none → u.phase = .sleep e ∧ u.busy = true ∧ u.seq = s.seq)
            ∧ (∀ l, s.params.pollLimit = some l → s.seq.polls + 1 < l →
                u.phase = .sleep e ∧ u.busy = true ∧ u.seq = { s.seq with polls := s.seq.polls + 1 })
            ∧ (∀ l, s.params.pollLimit = some l → l ≤ s.seq.polls + 1 → Ends .deviceTimeout u))
      ∧ (u.phase ≠ .idle → u.rspCode = s.rspCode ∧ KeepsResponse s u)
      ∧ KeepsPorts s u ∧ u.st = s.st

/-- 43_status.md section 5: the step of a poll's Sleep issues no transaction and leads to its next RDSR.
That RSP_BYTE and RSP_DATA are as before while the command runs is the model's reading (log entry 16). -/
def Obligations.SleepLeadsToNextRdsr : Prop :=
  ∀ (s t : State) (e : PollEnd), takeTurn s = (.block, t) → t.phase = .sleep e →
    ∃ u, step s = .next u ∧ StandsBefore (encRdsr s.params) (.poll e) u ∧ IssuesNothing s u ∧ u.seq = s.seq
      ∧ KeepsPorts s u ∧ u.st = s.st ∧ u.rspCode = s.rspCode ∧ KeepsResponse s u

/-- 43_status.md: each getter issues exactly one RDSR, ends OK with its field of the byte read in RSP_BYTE, and neither
polls nor changes the device. That RSP_DATA stays as it was is the model's reading (log entry 16). -/
def Obligations.GettersReturnFieldOfByteRead : Prop :=
  ∀ (s : State) (i : Instr) (field : Byte → Byte), s.st = .ready →
    (i, field) ∈
      [(.cmdReadStatus, fun v => v), (.cmdGetBp, fun v => (v &&& 0x0C#8) >>> 2),
        (.cmdGetSrwd, fun v => (v.extractLsb' 7 1).setWidth 8), (.cmdGetWip, fun v => (v.extractLsb' 0 1).setWidth 8),
        (.cmdGetWel, fun v => (v.extractLsb' 1 1).setWidth 8)] →
    ∃ t, exec i s = .next t ∧ Issues (encRdsr s.params) s t ∧ Ends .ok t ∧ t.rspByte = field (t.rx.getD 1 0)
      ∧ t.rspData = s.rspData ∧ t.dev = s.dev ∧ KeepsRest s t

/-- 43_status.md with 10_state.md section 5: out of deep power-down, the getters return the device's own fields. -/
def Obligations.GettersReturnDeviceFields : Prop :=
  ∀ s : State, s.st = .ready → s.dev.dpd = false →
    (∃ t, exec .cmdReadStatus s = .next t ∧ t.rspByte = statusByte s.dev ∧ t.rspCode = .ok)
      ∧ (∃ t, exec .cmdGetBp s = .next t ∧ t.rspByte.toNat = s.dev.bp.toNat ∧ t.rspCode = .ok)
      ∧ (∃ t, exec .cmdGetSrwd s = .next t ∧ (t.rspByte = if s.dev.srwd then 1 else 0) ∧ t.rspCode = .ok)
      ∧ (∃ t, exec .cmdGetWip s = .next t ∧ (t.rspByte = if s.dev.wip then 1 else 0) ∧ t.rspCode = .ok)
      ∧ ∃ t, exec .cmdGetWel s = .next t ∧ (t.rspByte = if s.dev.wel then 1 else 0) ∧ t.rspCode = .ok

/-- 43_status.md section 1: WRITE_STATUS sends its byte as given, and the poll follows; an accepted one starts the
device's status-write cycle.
That RSP_BYTE and RSP_DATA are as before while the command runs is the model's reading (log entry 16). -/
def Obligations.WriteStatusSendsByteThenPolls : Prop :=
  ∀ (s : State) (v : Byte), s.st = .ready →
    ∃ t, exec (.cmdWriteStatus v) s = .next t ∧ Issues [0x01#8, v] s t ∧ StartsPoll .done t
      ∧ (AcceptsStatusWrite s → t.dev = { s.dev with pending := some (.statusWrite v), wip := true })
      ∧ (¬AcceptsStatusWrite s → t.dev = s.dev)
      ∧ t.seq = { s.seq with polls := 0 } ∧ t.rspCode = s.rspCode ∧ KeepsResponse s t ∧ KeepsRest s t

/-- 43_status.md sections 2 and 3: SET_BP and SET_SRWD read the status once and stand before the WRSR of a byte with their
field replaced and every other bit as read.
That RSP_BYTE and RSP_DATA are as before while the command runs is the model's reading (log entry 16). -/
def Obligations.FieldSettersReadModifyWrite : Prop :=
  ∀ (s : State) (arg : Byte), s.st = .ready →
    (arg.toNat < 4 →
      ∃ t w, exec (.cmdSetBp arg) s = .next t ∧ Issues (encRdsr s.params) s t ∧ t.seq = { s.seq with sr := t.rx.getD 1 0 }
        ∧ StandsBefore [0x01#8, w] .thenPoll t ∧ t.dev = s.dev
        ∧ (w.extractLsb' 2 2).toNat = arg.toNat
        ∧ (∀ b, b ≠ 2 → b ≠ 3 → w.getLsbD b = t.seq.sr.getLsbD b)
        ∧ t.rspCode = s.rspCode ∧ KeepsResponse s t ∧ KeepsRest s t)
    ∧ (arg.toNat < 2 →
      ∃ t w, exec (.cmdSetSrwd arg) s = .next t ∧ Issues (encRdsr s.params) s t ∧ t.seq = { s.seq with sr := t.rx.getD 1 0 }
        ∧ StandsBefore [0x01#8, w] .thenPoll t ∧ t.dev = s.dev
        ∧ (w.extractLsb' 7 1).toNat = arg.toNat
        ∧ (∀ b, b ≠ 7 → w.getLsbD b = t.seq.sr.getLsbD b)
        ∧ t.rspCode = s.rspCode ∧ KeepsResponse s t ∧ KeepsRest s t)

/-- 43_status.md sections 2 and 3: the setter's next step of the block issues that WRSR, and the poll follows.
That RSP_BYTE and RSP_DATA are as before while the command runs is the model's reading (log entry 16). -/
def Obligations.SetterWritesBackThenPolls : Prop :=
  ∀ (s t : State) (w : Byte), takeTurn s = (.block, t) → t.phase = .xfer [0x01#8, w] .thenPoll →
    ∃ u, step s = .next u ∧ Issues [0x01#8, w] s u ∧ StartsPoll .done u
      ∧ (AcceptsStatusWrite s → u.dev = { s.dev with pending := some (.statusWrite w), wip := true })
      ∧ (¬AcceptsStatusWrite s → u.dev = s.dev)
      ∧ u.seq = { s.seq with polls := 0 } ∧ KeepsPorts s u ∧ u.st = s.st ∧ u.rspCode = s.rspCode ∧ KeepsResponse s u ∧ KeepsArray s u ∧ KeepsProtection s u

/-- 43_status.md section 4: SET_WEL issues exactly one transaction, WREN for 1 and WRDI for 0, and ends OK; the latch
takes the value where the device listens, and else nothing of the device changes. That the response registers without a
result stay as they were is the model's reading (log entry 16). -/
def Obligations.SetWelIssuesOneLatchInstruction : Prop :=
  ∀ s : State, s.st = .ready →
    (∃ t, exec (.cmdSetWel 1) s = .next t ∧ Issues [0x06#8] s t ∧ Ends .ok t ∧ KeepsResponse s t ∧ KeepsRest s t
      ∧ (Listens 0x06#8 s.dev → t.dev = { s.dev with wel := true }) ∧ (¬Listens 0x06#8 s.dev → t.dev = s.dev))
    ∧ ∃ t, exec (.cmdSetWel 0) s = .next t ∧ Issues [0x04#8] s t ∧ Ends .ok t ∧ KeepsResponse s t ∧ KeepsRest s t
      ∧ (Listens 0x04#8 s.dev → t.dev = { s.dev with wel := false }) ∧ (¬Listens 0x04#8 s.dev → t.dev = s.dev)

/-- 44_erase_power.md section 1: an erase of a page or sector sends the low 24 bits of its address (checked first only where
ERASE_RANGE_CHECK), the chip erase its opcode alone; the poll follows. An accepted erase starts the cycle of the page or
sector that holds the address modulo 0x20000, or of the whole array.
That RSP_BYTE and RSP_DATA are as before while the command runs is the model's reading (log entry 16). -/
def Obligations.EraseCommandsSendThenPoll : Prop :=
  ∀ (s : State) (addr : Word32), s.st = .ready →
    (s.params.eraseRangeCheck = true → 0 ≤ addr.toInt ∧ addr.toInt + 1 ≤ 0x20000) →
    (∃ t, exec (.cmdErasePage addr) s = .next t ∧ Issues (encPe (addr.setWidth 24)) s t ∧ StartsPoll .done t
      ∧ (AcceptsErase 0x42#8 (addr.toNat % 0x20000) s →
          t.dev = { s.dev with pending := some (.pageErase (addr.toNat % 0x20000 / 256)), wip := true })
      ∧ (¬AcceptsErase 0x42#8 (addr.toNat % 0x20000) s → t.dev = s.dev)
      ∧ t.seq = { s.seq with polls := 0 } ∧ t.rspCode = s.rspCode ∧ KeepsResponse s t ∧ KeepsRest s t)
    ∧ (∃ t, exec (.cmdEraseSector addr) s = .next t ∧ Issues (encSe (addr.setWidth 24)) s t ∧ StartsPoll .done t
      ∧ (AcceptsErase 0xD8#8 (addr.toNat % 0x20000) s →
          t.dev = { s.dev with pending := some (.sectorErase (addr.toNat % 0x20000 / 32768)), wip := true })
      ∧ (¬AcceptsErase 0xD8#8 (addr.toNat % 0x20000) s → t.dev = s.dev)
      ∧ t.seq = { s.seq with polls := 0 } ∧ t.rspCode = s.rspCode ∧ KeepsResponse s t ∧ KeepsRest s t)
    ∧ ∃ t, exec .cmdEraseChip s = .next t ∧ Issues [0xC7#8] s t ∧ StartsPoll .done t
      ∧ (AcceptsChipErase s → t.dev = { s.dev with pending := some .chipErase, wip := true })
      ∧ (¬AcceptsChipErase s → t.dev = s.dev)
      ∧ t.seq = { s.seq with polls := 0 } ∧ t.rspCode = s.rspCode ∧ KeepsResponse s t ∧ KeepsRest s t

/-- 44_erase_power.md section 2: DEEP_POWER_DOWN issues DPD and ends OK with no poll; WAKE issues RDID and ends OK with
byte 4 in RSP_BYTE, compared with nothing, and leaves ST alone. That the response registers without a result stay as
they were is the model's reading (log entry 16). -/
def Obligations.PowerCommandsIssueOneFrame : Prop :=
  ∀ s : State, s.st = .ready →
    (∃ t, exec .cmdDeepPowerDown s = .next t ∧ Issues [0xB9#8] s t ∧ Ends .ok t ∧ KeepsResponse s t ∧ KeepsRest s t
      ∧ (Listens 0xB9#8 s.dev → t.dev = { s.dev with dpd := true }) ∧ (¬Listens 0xB9#8 s.dev → t.dev = s.dev))
    ∧ ∃ t, exec .cmdWake s = .next t ∧ Issues (encRdid s.params) s t ∧ Ends .ok t ∧ t.rspByte = t.rx.getD 4 0
      ∧ t.rspData = s.rspData ∧ KeepsRest s t
      ∧ (s.dev.wip = false → t.rspByte = s.params.devId ∧ t.dev = { s.dev with dpd := false })
      ∧ (s.dev.wip = true → t.dev = s.dev)

/-! The whole machine. -/

/-- 10_state.md section 10 and 20_memory.md Part 2: the reset values the spec gives. -/
def Obligations.ResetLeavesGivenValues : Prop :=
  let s := State.reset
  s.st = .uninit ∧ s.phase = .idle ∧ s.busy = false ∧ s.rspCode = .ok ∧ s.holdN = true ∧ s.wpN = true ∧ s.trace = []
    ∧ s.dev.wip = false ∧ s.dev.wel = false ∧ s.dev.dpd = false ∧ s.dev.pending = none

/-- The machine's invariant holds at reset. The array's contents at reset are the model's choice (log entry 5). -/
def Obligations.InvariantHoldsAtReset : Prop :=
  Inv State.reset ∧ TraceOk State.reset

/-- Every step keeps the machine's invariant: the array's canonical form, WIP exactly while a cycle is pending, BUSY exactly
while a command runs, the sequencer registers where PHASE stands, the control lines inactive. -/
def Obligations.StepKeepsInvariant : Prop :=
  ∀ s t : State, Inv s → step s = .next t → Inv t

/-- From a state of the invariant the machine never stops: every step answers a next state. -/
def Obligations.StepNeverStops : Prop :=
  ∀ s : State, Inv s → ∃ t, step s = .next t

/-- 30_encoding.md section 3, 42_read_write.md section 3: every frame ever issued is one of the formats of the eleven
instructions, a READ or WRITE lies in the array, no WRITE crosses a page boundary, and as many bytes are received. -/
def Obligations.BlockIssuesOnlyItsFormats : Prop :=
  ∀ s t : State, Inv s → TraceOk s → step s = .next t → TraceOk t

/-- 42_read_write.md section 3, 60_exceptions.md section 1: PAGE_BOUNDARY is unreachable. -/
def Obligations.PageBoundaryNeverRaised : Prop :=
  ∀ s t : State, Inv s → s.rspCode ≠ .pageBoundary → step s = .next t → t.rspCode ≠ .pageBoundary

/-- 10_state.md sections 2 and 5, 00_scope.md section 3: no step changes the parameters or the reserved status bits, and
ST changes only at an INIT or at a reset of the block. -/
def Obligations.ParametersAndReservedBitsFixed : Prop :=
  ∀ s t : State, step s = .next t →
    t.params = s.params ∧ t.dev.rsv = s.dev.rsv
      ∧ (t.st ≠ s.st → (takeTurn s).1 = .reset ∨ s.phase = .decode ∧ decodeCommand s.cmd = .cmdInit)

/-- 20_memory.md sections on protection and the device cycle: a step that changes any byte of the array, or BP or SRWD, is
DevComplete with a cycle pending; a WRITE, an erase or a status write changes none of them when it is issued. -/
def Obligations.OnlyDevCompleteChangesArray : Prop :=
  ∀ s t : State, step s = .next t →
    (∃ a, Memory.read t.dev.arr a ≠ Memory.read s.dev.arr a) ∨ t.dev.bp ≠ s.dev.bp ∨ t.dev.srwd ≠ s.dev.srwd →
    (takeTurn s).1 = .device ∧ ∃ y, s.dev.pending = some y

/-- 42_read_write.md section 3: the chunks of a WRITE lie end to end from its address, each of 1 to 256 bytes in one page
and in range; the pieces of the payload they carry make it up again; their number follows from the first and last page. -/
def Obligations.ChunksPartitionPayload : Prop :=
  ∀ (a : Nat) (data : List Byte), a + data.length ≤ 0x20000 →
    let cs := chunks a data.length
    (∀ c ∈ cs, 1 ≤ c.2 ∧ c.2 ≤ 256 ∧ a ≤ c.1 ∧ c.1 + c.2 ≤ a + data.length ∧ c.1 / 256 = (c.1 + c.2 - 1) / 256)
      ∧ (cs.flatMap fun c => (data.drop (c.1 - a)).take c.2) = data
      ∧ (∀ j, j + 1 < cs.length → (cs.getD (j + 1) (0, 0)).1 = (cs.getD j (0, 0)).1 + (cs.getD j (0, 0)).2)
      ∧ cs.length = (if data = [] then 0 else (a + data.length - 1) / 256 - a / 256 + 1)

/-- 42_read_write.md section 3: a WRITE in range to a quiet device whose latch is clear (so every sub-write is ignored)
runs, one transaction a step, to OK, and has then issued exactly `P, W1, P, …, Wc, P` for the chunks of its payload, every
poll one RDSR. -/
def Obligations.WriteIssuesChunksInOrder : Prop :=
  ∀ (s : State) (addr : Word32) (data : List Byte), s.st = .ready → 0 ≤ addr.toInt →
    addr.toInt + data.length ≤ 0x20000 → QuietDevice false s.dev → s.sched = [] →
    ∃ t u, exec (.cmdWrite addr data) s = .next t
      ∧ Host.Core.run core (2 * (chunks addr.toNat data.length).length) t = .next u
      ∧ Ends .ok u ∧ sentFrames u = sentFrames s ++ writeFrames s.params addr.toNat data ∧ KeepsArray s u

/-- 20_memory.md Part 2 with DEV_WEL_AUTOCLEAR false, under schedule S0: a WRITE in range of any length to a quiet
unprotected device with the latch set runs to OK with exactly the frames of its chunks, every byte of the payload is then
at its address, every other byte of the array is unchanged, and a READ of the same range returns the payload. -/
def Obligations.WriteThenReadReturnsPayload : Prop :=
  ∀ (s : State) (addr : Word32) (data : List Byte), s.st = .ready → 0 ≤ addr.toInt →
    addr.toInt + data.length ≤ 0x20000 → QuietDevice true s.dev → s.dev.bp = 0 → Memory.wf s.dev.arr →
    s.params.devWelAutoclear = false → s.sched = scheduleS0 (chunks addr.toNat data.length).length →
    ∃ t u v, exec (.cmdWrite addr data) s = .next t
      ∧ Host.Core.run core (3 * (chunks addr.toNat data.length).length) t = .next u
      ∧ Ends .ok u ∧ sentFrames u = sentFrames s ++ writeFrames s.params addr.toNat data
      ∧ (∀ x, Memory.read u.dev.arr x =
          if addr.toNat ≤ x ∧ x < addr.toNat + data.length then data.getD (x - addr.toNat) 0
          else Memory.read s.dev.arr x)
      ∧ exec (.cmdRead addr (BitVec.ofNat 32 data.length)) u = .next v ∧ v.rspCode = .ok ∧ v.rspData = data

/-- 20_memory.md Part 2 and 70_reset_and_hazards.md section 3 with DEV_WEL_AUTOCLEAR true, under schedule S0: of a WRITE
in range to a quiet unprotected device with the latch set, only the first chunk is written, and the command still runs to
OK having issued every chunk. -/
def Obligations.OnlyFirstChunkLandsWithAutoclear : Prop :=
  ∀ (s : State) (addr : Word32) (data : List Byte), s.st = .ready → 0 ≤ addr.toInt →
    addr.toInt + data.length ≤ 0x20000 → data ≠ [] → QuietDevice true s.dev → s.dev.bp = 0 → Memory.wf s.dev.arr →
    s.params.devWelAutoclear = true → s.sched = scheduleS0 1 →
    ∃ t u, exec (.cmdWrite addr data) s = .next t
      ∧ Host.Core.run core (2 * (chunks addr.toNat data.length).length + 1) t = .next u
      ∧ Ends .ok u ∧ sentFrames u = sentFrames s ++ writeFrames s.params addr.toNat data ∧ u.dev.wel = false
      ∧ ∀ x, Memory.read u.dev.arr x =
          if addr.toNat ≤ x ∧ x < addr.toNat + min (256 - addr.toNat % 256) data.length then
            data.getD (x - addr.toNat) 0
          else Memory.read s.dev.arr x

/-- 60_exceptions.md section 1: the seven results have the numbers 0 to 6 in the order of the table, no two the same, and no
result has the reserved number 7. -/
def Obligations.ResultCodesAreNumbered : Prop :=
  (resultNumber .ok = 0 ∧ resultNumber .outOfRange = 1 ∧ resultNumber .pageBoundary = 2 ∧ resultNumber .initialization = 3
      ∧ resultNumber .deviceTimeout = 4 ∧ resultNumber .notReady = 5 ∧ resultNumber .illegalCommand = 6)
    ∧ ∀ v : BitVec 3, v ≠ 7 ↔ ∃ c, resultNumber c = v ∧ ∀ c', resultNumber c' = v → c' = c

/-- 10_state.md section 4: RSP_CODE changes only in a step that ends the running command or resets the block, and BUSY is
then 0 with PHASE at IDLE; so a step after which a command is still running leaves it as it was. -/
def Obligations.ResultCodeWrittenOnlyAtEnd : Prop :=
  ∀ s t : State, step s = .next t → t.rspCode ≠ s.rspCode →
    t.busy = false ∧ t.phase = .idle ∧ ((takeTurn s).1 = .reset ∨ s.phase ≠ .idle)
end

