-- ==== Sys2Proof/Laws/Decode.lean ====
section
/-! SUPPORT. The address field and frames: decoding after encoding, part by part, and what a decoded frame is. -/

namespace Sys2Proof

@[simp] theorem enc24_length (a : Addr24) : (enc24 a).length = 3 := rfl

/-- The address field read back is the address. -/
theorem dec24_enc24 (a : Addr24) :
    dec24 (a.extractLsb' 16 8) (a.extractLsb' 8 8) (a.extractLsb' 0 8) = a := by
  apply BitVec.eq_of_getLsbD_eq
  intro i hi
  unfold dec24
  rw [BitVec.getLsbD_append, BitVec.getLsbD_append]
  by_cases h0 : i < 8
  · simp [h0]
  · by_cases h1 : i - 8 < 8
    · simp [h0, h1, show 8 + (i - 8) = i by omega]
    · simp [h0, h1, show i - 8 - 8 < 8 by omega, show 16 + (i - 8 - 8) = i by omega]

/-- The bytes of an address field read as a number, rule R310. -/
theorem dec24_toNat (b2 b1 b0 : Byte) : (dec24 b2 b1 b0).toNat = b2.toNat * 65536 + b1.toNat * 256 + b0.toNat := by
  unfold dec24
  rw [BitVec.toNat_append, BitVec.toNat_append]
  have h0 := b0.isLt
  have h1 := b1.isLt
  rw [← Nat.shiftLeft_add_eq_or_of_lt h0, ← Nat.shiftLeft_add_eq_or_of_lt h1]
  simp only [Nat.shiftLeft_eq]
  omega

theorem decodeFrame_encRead (p : Params) (a : Addr24) (n : Nat) :
    decodeFrame (encRead p a n) = .ok (.spiRead a n) := by
  simp [encRead, enc24, decodeFrame, decodeRead, dec24_enc24]

theorem decodeFrame_encWrite (a : Addr24) (d : List Byte) (h : 1 ≤ d.length ∧ d.length ≤ 256) :
    decodeFrame (encWrite a d) = .ok (.spiWrite a d) := by
  simp [encWrite, enc24, decodeFrame, decodeWrite, dec24_enc24, h]

theorem decodeFrame_encRdsr (p : Params) : decodeFrame (encRdsr p) = .ok .spiRdsr := by
  simp [encRdsr, decodeFrame, decodeByte]

theorem decodeFrame_encWrsr (v : Byte) : decodeFrame (encWrsr v) = .ok (.spiWrsr v) := by
  simp [encWrsr, decodeFrame, decodeByte]

theorem decodeFrame_encPe (a : Addr24) : decodeFrame (encPe a) = .ok (.spiPe a) := by
  simp [encPe, enc24, decodeFrame, decodeAddr, dec24_enc24]

theorem decodeFrame_encSe (a : Addr24) : decodeFrame (encSe a) = .ok (.spiSe a) := by
  simp [encSe, enc24, decodeFrame, decodeAddr, dec24_enc24]

theorem decodeFrame_encRdid (p : Params) : decodeFrame (encRdid p) = .ok .spiRdid := by
  simp [encRdid, decodeFrame, decodeRdid]

/-- What a decoded frame is: an opcode of rule R300 with the operands of its format (rule R301). -/
theorem decodeFrame_ok {tx : List Byte} {i : Instr} (h : decodeFrame tx = .ok i) :
    (∃ b2 b1 b0 fill, tx = 0x03#8 :: b2 :: b1 :: b0 :: fill ∧ i = .spiRead (dec24 b2 b1 b0) fill.length)
      ∨ (∃ b2 b1 b0 data, tx = 0x02#8 :: b2 :: b1 :: b0 :: data ∧ i = .spiWrite (dec24 b2 b1 b0) data
          ∧ 1 ≤ data.length ∧ data.length ≤ 256)
      ∨ (tx = [0x06#8] ∧ i = .spiWren)
      ∨ (tx = [0x04#8] ∧ i = .spiWrdi)
      ∨ (∃ f, tx = [0x05#8, f] ∧ i = .spiRdsr)
      ∨ (∃ v, tx = [0x01#8, v] ∧ i = .spiWrsr v)
      ∨ (∃ b2 b1 b0, tx = [0x42#8, b2, b1, b0] ∧ i = .spiPe (dec24 b2 b1 b0))
      ∨ (∃ b2 b1 b0, tx = [0xD8#8, b2, b1, b0] ∧ i = .spiSe (dec24 b2 b1 b0))
      ∨ (tx = [0xC7#8] ∧ i = .spiCe)
      ∨ (∃ d2 d1 d0 f, tx = [0xAB#8, d2, d1, d0, f] ∧ i = .spiRdid)
      ∨ (tx = [0xB9#8] ∧ i = .spiDpd) := by
  cases tx with
  | nil => simp [decodeFrame] at h
  | cons op rest =>
    have hRead : ∀ {r : List Byte}, decodeRead op r = .ok i →
        ∃ b2 b1 b0 fill, r = b2 :: b1 :: b0 :: fill ∧ i = .spiRead (dec24 b2 b1 b0) fill.length := by
      intro r hr
      unfold decodeRead at hr
      split at hr
      · exact ⟨_, _, _, _, rfl, by simpa using hr.symm⟩
      · cases hr
    have hWrite : ∀ {r : List Byte}, decodeWrite op r = .ok i →
        ∃ b2 b1 b0 data, r = b2 :: b1 :: b0 :: data ∧ i = .spiWrite (dec24 b2 b1 b0) data
          ∧ 1 ≤ data.length ∧ data.length ≤ 256 := by
      intro r hr
      unfold decodeWrite at hr
      split at hr
      · split at hr
        · exact ⟨_, _, _, _, rfl, by simpa using hr.symm, ‹_›⟩
        · cases hr
      · cases hr
    have hOp : ∀ {r : List Byte} {j : Instr}, decodeOp op j r = .ok i → r = [] ∧ i = j := by
      intro r j hr
      unfold decodeOp at hr
      split at hr
      · exact ⟨rfl, by simpa using hr.symm⟩
      · cases hr
    have hByte : ∀ {r : List Byte} {j : Byte → Instr}, decodeByte op j r = .ok i → ∃ v, r = [v] ∧ i = j v := by
      intro r j hr
      unfold decodeByte at hr
      split at hr
      · exact ⟨_, rfl, by simpa using hr.symm⟩
      · cases hr
    have hAddr : ∀ {r : List Byte} {j : Addr24 → Instr}, decodeAddr op j r = .ok i →
        ∃ b2 b1 b0, r = [b2, b1, b0] ∧ i = j (dec24 b2 b1 b0) := by
      intro r j hr
      unfold decodeAddr at hr
      split at hr
      · exact ⟨_, _, _, rfl, by simpa using hr.symm⟩
      · cases hr
    have hRdid : ∀ {r : List Byte}, decodeRdid op r = .ok i → ∃ d2 d1 d0 f, r = [d2, d1, d0, f] ∧ i = .spiRdid := by
      intro r hr
      unfold decodeRdid at hr
      split at hr
      · exact ⟨_, _, _, _, rfl, by simpa using hr.symm⟩
      · cases hr
    simp only [decodeFrame] at h
    split at h
    · obtain ⟨_, _, _, _, rfl, rfl⟩ := hRead h; subst_vars; simp
    split at h
    · obtain ⟨_, _, _, _, rfl, rfl, hl⟩ := hWrite h; subst_vars; simp [hl]
    split at h
    · obtain ⟨rfl, rfl⟩ := hOp h; subst_vars; simp
    split at h
    · obtain ⟨rfl, rfl⟩ := hOp h; subst_vars; simp
    split at h
    · obtain ⟨_, rfl, rfl⟩ := hByte h; subst_vars; simp
    split at h
    · obtain ⟨_, rfl, rfl⟩ := hByte h; subst_vars; simp
    split at h
    · obtain ⟨_, _, _, rfl, rfl⟩ := hAddr h; subst_vars; simp
    split at h
    · obtain ⟨_, _, _, rfl, rfl⟩ := hAddr h; subst_vars; simp
    split at h
    · obtain ⟨rfl, rfl⟩ := hOp h; subst_vars; simp
    split at h
    · obtain ⟨_, _, _, _, rfl, rfl⟩ := hRdid h; subst_vars; simp
    split at h
    · obtain ⟨rfl, rfl⟩ := hOp h; subst_vars; simp
    · cases h

end Sys2Proof
end

