-- ==== Sys2Proof/Laws/Memory.lean ====
section
/-! SUPPORT. Reading after writing and after filling, and the canonical form of the array. -/

namespace Sys2Proof.Machine

@[simp] theorem Memory.read_nil (a : Nat) : Memory.read [] a = blankByte := rfl

theorem Memory.wf_nil : Memory.wf [] := by simp [Memory.wf]

theorem Memory.wf_cons {c : Host.Cell} {m : List Host.Cell} :
    Memory.wf (c :: m) ↔ (∀ d ∈ m, c.1 < d.1) ∧ (c.1 < addrLimit ∧ c.2 ≠ blankByte) ∧ Memory.wf m := by
  simp only [Memory.wf, List.pairwise_cons, List.forall_mem_cons]
  tauto

/-- An address below every entry reads as blank. -/
theorem Memory.read_of_lt {m : List Host.Cell} {a : Nat} (h : ∀ c ∈ m, a < c.1) : Memory.read m a = blankByte := by
  induction m with
  | nil => rfl
  | cons c m ih =>
    have := h c (by simp)
    simp only [Memory.read, if_neg (by omega : ¬c.1 = a)]
    exact ih fun d hd => h d (by simp [hd])

/-- Where an entry of a write comes from. -/
theorem Memory.mem_write {m : List Host.Cell} {a : Nat} {v : Byte} {d : Host.Cell} (h : d ∈ Memory.write m a v) :
    d ∈ m ∨ d = (a, v) ∧ v ≠ blankByte := by
  induction m with
  | nil =>
    simp only [Memory.write] at h
    split at h <;> simp_all
  | cons c m ih =>
    simp only [Memory.write] at h
    split at h
    · rcases List.mem_cons.mp h with rfl | h
      · simp
      · rcases ih h with h | h <;> simp [h]
    · split at h <;> split at h <;> simp_all <;> tauto

/-- A write keeps the canonical form. -/
theorem Memory.write_wf {m : List Host.Cell} {a : Nat} {v : Byte} (hm : Memory.wf m) (ha : a < addrLimit) :
    Memory.wf (Memory.write m a v) := by
  induction m with
  | nil =>
    simp only [Memory.write]
    split
    · exact Memory.wf_nil
    · exact Memory.wf_cons.mpr ⟨by simp, ⟨ha, ‹_›⟩, Memory.wf_nil⟩
  | cons c m ih =>
    obtain ⟨h1, h2, h3⟩ := Memory.wf_cons.mp hm
    simp only [Memory.write]
    split
    · rename_i hlt
      refine Memory.wf_cons.mpr ⟨fun d hd => ?_, h2, ih h3⟩
      rcases Memory.mem_write hd with hd | ⟨rfl, -⟩
      · exact h1 d hd
      · exact hlt
    · rename_i hge
      by_cases hc : c.1 = a <;> by_cases hv : v = blankByte <;> simp only [hc, hv, if_true, if_false]
      · exact h3
      · refine Memory.wf_cons.mpr ⟨fun d hd => ?_, ⟨ha, hv⟩, h3⟩
        have := h1 d hd
        change a < d.1; omega
      · exact hm
      · refine Memory.wf_cons.mpr ⟨fun d hd => ?_, ⟨ha, hv⟩, hm⟩
        change a < d.1
        rcases List.mem_cons.mp hd with rfl | hd
        · omega
        · have := h1 d hd; omega

/-- Reading any address after a write. -/
theorem Memory.read_write {m : List Host.Cell} {a : Nat} {v : Byte} (hm : Memory.wf m) (x : Nat) :
    Memory.read (Memory.write m a v) x = if x = a then v else Memory.read m x := by
  induction m with
  | nil =>
    simp only [Memory.write]
    split
    · simp_all
    · simp only [Memory.read, eq_comm]
  | cons c m ih =>
    obtain ⟨h1, h2, h3⟩ := Memory.wf_cons.mp hm
    simp only [Memory.write]
    split
    · rename_i hlt
      simp only [Memory.read, ih h3]
      split
      · rw [if_neg (by omega)]
      · rfl
    · rename_i hge
      have hblank : c.1 = a → Memory.read m a = blankByte := fun h => Memory.read_of_lt (h ▸ h1)
      have hblank' : ¬c.1 = a → Memory.read (c :: m) a = blankByte := fun h =>
        Memory.read_of_lt fun d hd => by
          rcases List.mem_cons.mp hd with rfl | hd
          · omega
          · have := h1 d hd; omega
      by_cases hx : x = a
      · subst hx
        by_cases hc : c.1 = x <;> by_cases hv : v = blankByte <;> simp [hc, hv, Memory.read] <;>
          first
            | exact hblank hc
            | (have := hblank' hc; simpa [Memory.read, hc] using this)
      · by_cases hc : c.1 = a <;> by_cases hv : v = blankByte <;> simp [hc, hv, Memory.read, hx, Ne.symm hx]

theorem Memory.read_write_same {m : List Host.Cell} (a : Nat) (v : Byte) (hm : Memory.wf m) :
    Memory.read (Memory.write m a v) a = v := by
  simp [Memory.read_write hm]

theorem Memory.read_write_other {m : List Host.Cell} {a x : Nat} (v : Byte) (hm : Memory.wf m) (h : x ≠ a) :
    Memory.read (Memory.write m a v) x = Memory.read m x := by
  simp [Memory.read_write hm, h]

/-- An address no entry of the first part has is read from the second. -/
theorem Memory.read_append_of_not_mem {l m : List Host.Cell} {a : Nat} (h : ∀ c ∈ l, c.1 ≠ a) :
    Memory.read (l ++ m) a = Memory.read m a := by
  induction l with
  | nil => rfl
  | cons c l ih =>
    simp only [List.cons_append, Memory.read, if_neg (h c (by simp))]
    exact ih fun d hd => h d (by simp [hd])

/-- Dropping entries of other addresses changes no read. -/
theorem Memory.read_filter {m : List Host.Cell} {p : Host.Cell → Bool} {a : Nat} (h : ∀ v, p (a, v) = true) :
    Memory.read (m.filter p) a = Memory.read m a := by
  induction m with
  | nil => rfl
  | cons c m ih =>
    obtain ⟨k, v⟩ := c
    by_cases hp : p (k, v) = true
    · simp [hp, Memory.read, ih]
    · have hk : k ≠ a := by rintro rfl; exact hp (h v)
      simp [hp, Memory.read, ih, hk]

/-- Appending entries of other addresses changes no read. -/
theorem Memory.read_append_left {l m : List Host.Cell} {a : Nat} (h : ∀ c ∈ m, c.1 ≠ a) :
    Memory.read (l ++ m) a = Memory.read l a := by
  induction l with
  | nil => simpa using Memory.read_append_of_not_mem (m := []) h
  | cons c l ih => simp only [List.cons_append, Memory.read, ih]

theorem Memory.mem_run {base n : Nat} {v : Byte} {c : Host.Cell} (h : c ∈ Memory.run base n v) :
    base ≤ c.1 ∧ c.1 < base + n ∧ c.2 ≠ blankByte := by
  unfold Memory.run at h
  split at h
  · simp at h
  · obtain ⟨x, hx, rfl⟩ := List.mem_map.mp h
    have := List.mem_range'_1.mp hx
    exact ⟨this.1, this.2, ‹_›⟩

/-- A run of equal bytes reads as that byte inside, whatever comes after, if nothing there is at its addresses. -/
theorem Memory.read_run {base n a : Nat} {v : Byte} {m : List Host.Cell} (h1 : base ≤ a) (h2 : a < base + n)
    (hm : ∀ c ∈ m, base + n ≤ c.1) : Memory.read (Memory.run base n v ++ m) a = v := by
  unfold Memory.run
  split
  · rename_i hv
    rw [hv, List.nil_append]
    exact Memory.read_of_lt fun c hc => by have := hm c hc; omega
  · clear hm
    induction n generalizing base with
    | zero => omega
    | succ n ih =>
      simp only [List.range'_succ, List.map_cons, List.cons_append, Memory.read]
      split
      · rfl
      · exact ih (by omega) (by omega)

/-- Reading any address after a fill. -/
theorem Memory.read_fill (m : List Host.Cell) (base n : Nat) (v : Byte) (a : Nat) :
    Memory.read (Memory.fill m base n v) a = if base ≤ a ∧ a < base + n then v else Memory.read m a := by
  have hlow : ∀ c ∈ m.filter (fun c => decide (c.1 < base)), c.1 < base := by simp
  have hhigh : ∀ c ∈ m.filter (fun c => decide (base + n ≤ c.1)), base + n ≤ c.1 := by simp
  unfold Memory.fill
  by_cases hb : a < base
  · rw [if_neg (by omega), Memory.read_append_left, Memory.read_filter (by simpa using hb)]
    intro c hc
    rcases List.mem_append.mp hc with hc | hc
    · have := Memory.mem_run hc; omega
    · have := hhigh c hc; omega
  · rw [Memory.read_append_of_not_mem fun c hc => by have := hlow c hc; omega]
    by_cases hin : a < base + n
    · rw [if_pos ⟨by omega, hin⟩]
      exact Memory.read_run (by omega) hin hhigh
    · rw [if_neg (by omega), Memory.read_append_of_not_mem fun c hc => by have := Memory.mem_run hc; omega]
      exact Memory.read_filter (by simp; omega)

/-- A fill inside the array keeps the canonical form. -/
theorem Memory.fill_wf {m : List Host.Cell} {base n : Nat} {v : Byte} (hm : Memory.wf m) (h : base + n ≤ addrLimit) :
    Memory.wf (Memory.fill m base n v) := by
  obtain ⟨h1, h2⟩ := hm
  have hlow : ∀ c ∈ m.filter (fun c => decide (c.1 < base)), c.1 < base := by simp
  have hhigh : ∀ c ∈ m.filter (fun c => decide (base + n ≤ c.1)), base + n ≤ c.1 := by simp
  have hpair : (Memory.run base n v).Pairwise (fun c d => c.1 < d.1) := by
    unfold Memory.run
    split
    · exact List.Pairwise.nil
    · exact List.pairwise_map.mpr (List.pairwise_lt_range')
  refine ⟨List.pairwise_append.mpr ⟨h1.filter _, List.pairwise_append.mpr ⟨hpair, h1.filter _, ?_⟩, ?_⟩, ?_⟩
  · intro c hc d hd
    have := Memory.mem_run hc
    have := hhigh d hd
    omega
  · intro c hc d hd
    have := hlow c hc
    rcases List.mem_append.mp hd with hd | hd
    · have := Memory.mem_run hd; omega
    · have := hhigh d hd; omega
  · intro c hc
    rcases List.mem_append.mp hc with hc | hc
    · exact h2 c (List.mem_filter.mp hc).1
    · rcases List.mem_append.mp hc with hc | hc
      · have := Memory.mem_run hc
        exact ⟨by omega, this.2.2⟩
      · exact h2 c (List.mem_filter.mp hc).1

/-- A write cycle's bytes stay in its page, so it keeps the canonical form. -/
theorem Memory.writePage_wf {m : List Host.Cell} {base off : Nat} {d : List Byte} (hm : Memory.wf m)
    (h : base + pageSize ≤ addrLimit) : Memory.wf (Memory.writePage m base off d) := by
  induction d generalizing m off with
  | nil => exact hm
  | cons v vs ih =>
    have : off % pageSize < pageSize := Nat.mod_lt _ (by decide)
    exact ih (Memory.write_wf hm (by omega))

/-- A write cycle leaves every byte outside its page alone. -/
theorem Memory.read_writePage_outside {m : List Host.Cell} {base off x : Nat} {d : List Byte} (hm : Memory.wf m)
    (h : base + pageSize ≤ addrLimit) (hx : x < base ∨ base + pageSize ≤ x) :
    Memory.read (Memory.writePage m base off d) x = Memory.read m x := by
  induction d generalizing m off with
  | nil => rfl
  | cons v vs ih =>
    have hlt : off % pageSize < pageSize := Nat.mod_lt _ (by decide)
    simp only [Memory.writePage]
    rw [ih (Memory.write_wf hm (by omega)), Memory.read_write_other v hm (by omega)]

/-- A write cycle that does not wrap puts its bytes at consecutive addresses and changes no other. -/
theorem Memory.read_writePage {m : List Host.Cell} {base off x : Nat} {d : List Byte} (hm : Memory.wf m)
    (h : base + pageSize ≤ addrLimit) (hd : off + d.length ≤ pageSize) :
    Memory.read (Memory.writePage m base off d) x =
      if base + off ≤ x ∧ x < base + off + d.length then d.getD (x - (base + off)) 0 else Memory.read m x := by
  induction d generalizing m off with
  | nil => simp [Memory.writePage]
  | cons v vs ih =>
    simp only [List.length_cons] at hd ⊢
    have hoff : off % pageSize = off := Nat.mod_eq_of_lt (by omega)
    simp only [Memory.writePage, hoff]
    rw [ih (Memory.write_wf hm (by omega)) (by omega)]
    by_cases hx : x = base + off
    · subst hx
      rw [if_neg (by omega), if_pos (by omega), Memory.read_write_same _ _ hm]
      simp
    · by_cases hin : base + off ≤ x ∧ x < base + off + (vs.length + 1)
      · rw [if_pos (by omega), if_pos hin]
        obtain ⟨j, hj⟩ : ∃ j, x = base + off + 1 + j := ⟨x - (base + off + 1), by omega⟩
        subst hj
        rw [show base + off + 1 + j - (base + (off + 1)) = j by omega,
          show base + off + 1 + j - (base + off) = j + 1 by omega]
        simp
      · rw [if_neg (by omega), if_neg hin, Memory.read_write_other v hm hx]

end Sys2Proof.Machine
end

