-- ==== Sys2Proof/Laws/State.lean ====
section
/-! SUPPORT. Each field after each shared operation on the state, so that no proof unfolds a record update. -/

namespace Sys2Proof.Machine

@[simp] theorem exchange_params (tx : List Byte) (s : State) : (exchange tx s).params = s.params := rfl
@[simp] theorem exchange_st (tx : List Byte) (s : State) : (exchange tx s).st = s.st := rfl
@[simp] theorem exchange_phase (tx : List Byte) (s : State) : (exchange tx s).phase = s.phase := rfl
@[simp] theorem exchange_busy (tx : List Byte) (s : State) : (exchange tx s).busy = s.busy := rfl
@[simp] theorem exchange_seq (tx : List Byte) (s : State) : (exchange tx s).seq = s.seq := rfl
@[simp] theorem exchange_cmd (tx : List Byte) (s : State) : (exchange tx s).cmd = s.cmd := rfl
@[simp] theorem exchange_rspCode (tx : List Byte) (s : State) : (exchange tx s).rspCode = s.rspCode := rfl
@[simp] theorem exchange_rspByte (tx : List Byte) (s : State) : (exchange tx s).rspByte = s.rspByte := rfl
@[simp] theorem exchange_rspData (tx : List Byte) (s : State) : (exchange tx s).rspData = s.rspData := rfl
@[simp] theorem exchange_holdN (tx : List Byte) (s : State) : (exchange tx s).holdN = s.holdN := rfl
@[simp] theorem exchange_wpN (tx : List Byte) (s : State) : (exchange tx s).wpN = s.wpN := rfl
@[simp] theorem exchange_inputs (tx : List Byte) (s : State) : (exchange tx s).inputs = s.inputs := rfl
@[simp] theorem exchange_sched (tx : List Byte) (s : State) : (exchange tx s).sched = s.sched := rfl
@[simp] theorem exchange_trace (tx : List Byte) (s : State) : (exchange tx s).trace = s.trace ++ [⟨tx, (exchange tx s).rx⟩] := rfl
@[simp] theorem exchange_fresh (tx : List Byte) (s : State) : (exchange tx s).fresh = s.fresh + 1 := rfl

@[simp] theorem endCommand_params (c : ResultCode) (s : State) : (endCommand c s).params = s.params := rfl
@[simp] theorem endCommand_st (c : ResultCode) (s : State) : (endCommand c s).st = s.st := rfl
@[simp] theorem endCommand_cmd (c : ResultCode) (s : State) : (endCommand c s).cmd = s.cmd := rfl
@[simp] theorem endCommand_rspByte (c : ResultCode) (s : State) : (endCommand c s).rspByte = s.rspByte := rfl
@[simp] theorem endCommand_rspData (c : ResultCode) (s : State) : (endCommand c s).rspData = s.rspData := rfl
@[simp] theorem endCommand_holdN (c : ResultCode) (s : State) : (endCommand c s).holdN = s.holdN := rfl
@[simp] theorem endCommand_wpN (c : ResultCode) (s : State) : (endCommand c s).wpN = s.wpN := rfl
@[simp] theorem endCommand_dev (c : ResultCode) (s : State) : (endCommand c s).dev = s.dev := rfl
@[simp] theorem endCommand_rx (c : ResultCode) (s : State) : (endCommand c s).rx = s.rx := rfl
@[simp] theorem endCommand_trace (c : ResultCode) (s : State) : (endCommand c s).trace = s.trace := rfl
@[simp] theorem endCommand_inputs (c : ResultCode) (s : State) : (endCommand c s).inputs = s.inputs := rfl
@[simp] theorem endCommand_sched (c : ResultCode) (s : State) : (endCommand c s).sched = s.sched := rfl
@[simp] theorem endCommand_rspCode (c : ResultCode) (s : State) : (endCommand c s).rspCode = c := rfl
@[simp] theorem endCommand_busy (c : ResultCode) (s : State) : (endCommand c s).busy = false := rfl
@[simp] theorem endCommand_phase (c : ResultCode) (s : State) : (endCommand c s).phase = .idle := rfl
@[simp] theorem endCommand_seq (c : ResultCode) (s : State) : (endCommand c s).seq = freeSeq s.fresh := rfl
@[simp] theorem endCommand_fresh (c : ResultCode) (s : State) : (endCommand c s).fresh = s.fresh + 1 := rfl

@[simp] theorem finish_params (s : State) : (finish s).params = s.params := rfl
@[simp] theorem finish_st (s : State) : (finish s).st = s.st := rfl
@[simp] theorem finish_cmd (s : State) : (finish s).cmd = s.cmd := rfl
@[simp] theorem finish_rspByte (s : State) : (finish s).rspByte = s.rspByte := rfl
@[simp] theorem finish_rspData (s : State) : (finish s).rspData = s.rspData := rfl
@[simp] theorem finish_holdN (s : State) : (finish s).holdN = s.holdN := rfl
@[simp] theorem finish_wpN (s : State) : (finish s).wpN = s.wpN := rfl
@[simp] theorem finish_dev (s : State) : (finish s).dev = s.dev := rfl
@[simp] theorem finish_rx (s : State) : (finish s).rx = s.rx := rfl
@[simp] theorem finish_trace (s : State) : (finish s).trace = s.trace := rfl
@[simp] theorem finish_inputs (s : State) : (finish s).inputs = s.inputs := rfl
@[simp] theorem finish_sched (s : State) : (finish s).sched = s.sched := rfl
@[simp] theorem finish_rspCode (s : State) : (finish s).rspCode = .ok := rfl
@[simp] theorem finish_busy (s : State) : (finish s).busy = false := rfl
@[simp] theorem finish_phase (s : State) : (finish s).phase = .idle := rfl
@[simp] theorem finish_seq (s : State) : (finish s).seq = freeSeq s.fresh := rfl
@[simp] theorem finish_fresh (s : State) : (finish s).fresh = s.fresh + 1 := rfl

@[simp] theorem finishByte_params (v : Byte) (s : State) : (finishByte v s).params = s.params := rfl
@[simp] theorem finishByte_st (v : Byte) (s : State) : (finishByte v s).st = s.st := rfl
@[simp] theorem finishByte_cmd (v : Byte) (s : State) : (finishByte v s).cmd = s.cmd := rfl
@[simp] theorem finishByte_rspData (v : Byte) (s : State) : (finishByte v s).rspData = s.rspData := rfl
@[simp] theorem finishByte_holdN (v : Byte) (s : State) : (finishByte v s).holdN = s.holdN := rfl
@[simp] theorem finishByte_wpN (v : Byte) (s : State) : (finishByte v s).wpN = s.wpN := rfl
@[simp] theorem finishByte_dev (v : Byte) (s : State) : (finishByte v s).dev = s.dev := rfl
@[simp] theorem finishByte_rx (v : Byte) (s : State) : (finishByte v s).rx = s.rx := rfl
@[simp] theorem finishByte_trace (v : Byte) (s : State) : (finishByte v s).trace = s.trace := rfl
@[simp] theorem finishByte_inputs (v : Byte) (s : State) : (finishByte v s).inputs = s.inputs := rfl
@[simp] theorem finishByte_sched (v : Byte) (s : State) : (finishByte v s).sched = s.sched := rfl
@[simp] theorem finishByte_rspCode (v : Byte) (s : State) : (finishByte v s).rspCode = .ok := rfl
@[simp] theorem finishByte_busy (v : Byte) (s : State) : (finishByte v s).busy = false := rfl
@[simp] theorem finishByte_phase (v : Byte) (s : State) : (finishByte v s).phase = .idle := rfl
@[simp] theorem finishByte_seq (v : Byte) (s : State) : (finishByte v s).seq = freeSeq s.fresh := rfl
@[simp] theorem finishByte_fresh (v : Byte) (s : State) : (finishByte v s).fresh = s.fresh + 1 := rfl
@[simp] theorem finishByte_rspByte (v : Byte) (s : State) : (finishByte v s).rspByte = v := rfl

@[simp] theorem raise_params (c : ResultCode) (s : State) : (raise c s).params = s.params := rfl
@[simp] theorem raise_st (c : ResultCode) (s : State) : (raise c s).st = s.st := rfl
@[simp] theorem raise_cmd (c : ResultCode) (s : State) : (raise c s).cmd = s.cmd := rfl
@[simp] theorem raise_holdN (c : ResultCode) (s : State) : (raise c s).holdN = s.holdN := rfl
@[simp] theorem raise_wpN (c : ResultCode) (s : State) : (raise c s).wpN = s.wpN := rfl
@[simp] theorem raise_dev (c : ResultCode) (s : State) : (raise c s).dev = s.dev := rfl
@[simp] theorem raise_rx (c : ResultCode) (s : State) : (raise c s).rx = s.rx := rfl
@[simp] theorem raise_trace (c : ResultCode) (s : State) : (raise c s).trace = s.trace := rfl
@[simp] theorem raise_inputs (c : ResultCode) (s : State) : (raise c s).inputs = s.inputs := rfl
@[simp] theorem raise_sched (c : ResultCode) (s : State) : (raise c s).sched = s.sched := rfl
@[simp] theorem raise_rspCode (c : ResultCode) (s : State) : (raise c s).rspCode = c := rfl
@[simp] theorem raise_busy (c : ResultCode) (s : State) : (raise c s).busy = false := rfl
@[simp] theorem raise_phase (c : ResultCode) (s : State) : (raise c s).phase = .idle := rfl
@[simp] theorem raise_seq (c : ResultCode) (s : State) : (raise c s).seq = freeSeq s.fresh := rfl
@[simp] theorem raise_fresh (c : ResultCode) (s : State) : (raise c s).fresh = s.fresh + 1 := rfl

@[simp] theorem stopBefore_params (tx : List Byte) (k : Cont) (s : State) : (stopBefore tx k s).params = s.params := rfl
@[simp] theorem stopBefore_st (tx : List Byte) (k : Cont) (s : State) : (stopBefore tx k s).st = s.st := rfl
@[simp] theorem stopBefore_seq (tx : List Byte) (k : Cont) (s : State) : (stopBefore tx k s).seq = s.seq := rfl
@[simp] theorem stopBefore_cmd (tx : List Byte) (k : Cont) (s : State) : (stopBefore tx k s).cmd = s.cmd := rfl
@[simp] theorem stopBefore_rspCode (tx : List Byte) (k : Cont) (s : State) : (stopBefore tx k s).rspCode = s.rspCode := rfl
@[simp] theorem stopBefore_rspByte (tx : List Byte) (k : Cont) (s : State) : (stopBefore tx k s).rspByte = s.rspByte := rfl
@[simp] theorem stopBefore_rspData (tx : List Byte) (k : Cont) (s : State) : (stopBefore tx k s).rspData = s.rspData := rfl
@[simp] theorem stopBefore_holdN (tx : List Byte) (k : Cont) (s : State) : (stopBefore tx k s).holdN = s.holdN := rfl
@[simp] theorem stopBefore_wpN (tx : List Byte) (k : Cont) (s : State) : (stopBefore tx k s).wpN = s.wpN := rfl
@[simp] theorem stopBefore_dev (tx : List Byte) (k : Cont) (s : State) : (stopBefore tx k s).dev = s.dev := rfl
@[simp] theorem stopBefore_rx (tx : List Byte) (k : Cont) (s : State) : (stopBefore tx k s).rx = s.rx := rfl
@[simp] theorem stopBefore_trace (tx : List Byte) (k : Cont) (s : State) : (stopBefore tx k s).trace = s.trace := rfl
@[simp] theorem stopBefore_inputs (tx : List Byte) (k : Cont) (s : State) : (stopBefore tx k s).inputs = s.inputs := rfl
@[simp] theorem stopBefore_sched (tx : List Byte) (k : Cont) (s : State) : (stopBefore tx k s).sched = s.sched := rfl
@[simp] theorem stopBefore_fresh (tx : List Byte) (k : Cont) (s : State) : (stopBefore tx k s).fresh = s.fresh := rfl
@[simp] theorem stopBefore_phase (tx : List Byte) (k : Cont) (s : State) : (stopBefore tx k s).phase = .xfer tx k := rfl
@[simp] theorem stopBefore_busy (tx : List Byte) (k : Cont) (s : State) : (stopBefore tx k s).busy = true := rfl

@[simp] theorem startPoll_params (e : PollEnd) (s : State) : (startPoll e s).params = s.params := rfl
@[simp] theorem startPoll_st (e : PollEnd) (s : State) : (startPoll e s).st = s.st := rfl
@[simp] theorem startPoll_cmd (e : PollEnd) (s : State) : (startPoll e s).cmd = s.cmd := rfl
@[simp] theorem startPoll_rspCode (e : PollEnd) (s : State) : (startPoll e s).rspCode = s.rspCode := rfl
@[simp] theorem startPoll_rspByte (e : PollEnd) (s : State) : (startPoll e s).rspByte = s.rspByte := rfl
@[simp] theorem startPoll_rspData (e : PollEnd) (s : State) : (startPoll e s).rspData = s.rspData := rfl
@[simp] theorem startPoll_holdN (e : PollEnd) (s : State) : (startPoll e s).holdN = s.holdN := rfl
@[simp] theorem startPoll_wpN (e : PollEnd) (s : State) : (startPoll e s).wpN = s.wpN := rfl
@[simp] theorem startPoll_dev (e : PollEnd) (s : State) : (startPoll e s).dev = s.dev := rfl
@[simp] theorem startPoll_rx (e : PollEnd) (s : State) : (startPoll e s).rx = s.rx := rfl
@[simp] theorem startPoll_trace (e : PollEnd) (s : State) : (startPoll e s).trace = s.trace := rfl
@[simp] theorem startPoll_inputs (e : PollEnd) (s : State) : (startPoll e s).inputs = s.inputs := rfl
@[simp] theorem startPoll_sched (e : PollEnd) (s : State) : (startPoll e s).sched = s.sched := rfl
@[simp] theorem startPoll_fresh (e : PollEnd) (s : State) : (startPoll e s).fresh = s.fresh := rfl
@[simp] theorem startPoll_phase (e : PollEnd) (s : State) : (startPoll e s).phase = .xfer (encRdsr s.params) (.poll e) := rfl
@[simp] theorem startPoll_busy (e : PollEnd) (s : State) : (startPoll e s).busy = true := rfl
@[simp] theorem startPoll_seq (e : PollEnd) (s : State) : (startPoll e s).seq = { s.seq with polls := 0 } := rfl

@[simp] theorem blockReset_params (s : State) : (blockReset s).params = s.params := rfl
@[simp] theorem blockReset_dev (s : State) : (blockReset s).dev = s.dev := rfl
@[simp] theorem blockReset_rx (s : State) : (blockReset s).rx = s.rx := rfl
@[simp] theorem blockReset_trace (s : State) : (blockReset s).trace = s.trace := rfl
@[simp] theorem blockReset_inputs (s : State) : (blockReset s).inputs = s.inputs := rfl
@[simp] theorem blockReset_sched (s : State) : (blockReset s).sched = s.sched := rfl
@[simp] theorem blockReset_st (s : State) : (blockReset s).st = .uninit := rfl
@[simp] theorem blockReset_phase (s : State) : (blockReset s).phase = .idle := rfl
@[simp] theorem blockReset_busy (s : State) : (blockReset s).busy = false := rfl
@[simp] theorem blockReset_rspCode (s : State) : (blockReset s).rspCode = .ok := rfl

end Sys2Proof.Machine
end

