-- ==== Sys2Proof/Laws/Device.lean ====
section
/-! SUPPORT. The reference device: the bytes it answers, everything an answer can do to it, and its cycle's end. -/

namespace Sys2Proof.Machine

/-! Received bytes. -/

@[simp] theorem reply_length (c len : Nat) (named : Nat → Option Byte) : (reply c len named).length = len := by
  simp [reply]

theorem reply_getD {c len i : Nat} {named : Nat → Option Byte} (h : i < len) :
    (reply c len named).getD i 0 = (named i).getD (Config.draw c i) := by
  simp [reply, List.getD, h]

theorem answerByOpcode_length (p : Params) (wp : Bool) (c : Nat) (d : Device) (op : Byte) (tx : List Byte) :
    (answerByOpcode p wp c d op tx).2.length = tx.length := by
  simp only [answerByOpcode, answerRead, answerWrite, answerWren, answerWrdi, answerRdsr, answerWrsr, answerPe, answerSe,
    answerCe, answerRdid, answerDpd, drawnReply, apply_ite Prod.snd, apply_ite List.length, reply_length, ite_self]

/-- A frame receives as many bytes as it sends. -/
@[simp] theorem answer_length (p : Params) (wp : Bool) (c : Nat) (d : Device) (tx : List Byte) :
    (answer p wp c d tx).2.length = tx.length := by
  unfold answer
  repeat' split
  all_goals simp [drawnReply, answerByOpcode_length]

/-- `Xfer` issues exactly its frame. -/
theorem exchange_issues (tx : List Byte) (s : State) : Issues tx s (exchange tx s) :=
  ⟨answer_length _ _ _ _ _, rfl⟩

/-- A frame whose opcode the device listens to is answered by its opcode. -/
theorem answer_of_listens {p : Params} {wp : Bool} {c : Nat} {d : Device} {op : Byte} {rest : List Byte}
    (h : Listens op d) : answer p wp c d (op :: rest) = answerByOpcode p wp c d op (op :: rest) := by
  obtain ⟨h1, h2⟩ := h
  unfold answer
  simp only
  rw [if_neg (fun hd => hd.2 (h1 hd.1)), if_neg (fun hd => hd.2 (h2 hd.1))]

/-- A frame whose opcode the device does not listen to changes nothing and receives draws. -/
theorem answer_of_not_listens {p : Params} {wp : Bool} {c : Nat} {d : Device} {op : Byte} {rest : List Byte}
    (h : ¬Listens op d) : answer p wp c d (op :: rest) = drawnReply c d (op :: rest) := by
  unfold answer
  simp only
  split
  · rfl
  · split
    · rfl
    · rename_i h1 h2
      exact absurd ⟨fun hd => not_not.mp fun hne => h1 ⟨hd, hne⟩, fun hd => not_not.mp fun hne => h2 ⟨hd, hne⟩⟩ h

/-- The transaction of a frame whose opcode the device listens to. -/
theorem exchange_of_listens {op : Byte} {rest : List Byte} {s : State} (h : Listens op s.dev) :
    exchange (op :: rest) s =
      let ans := answerByOpcode s.params (wpInput s) s.fresh s.dev op (op :: rest)
      { s with dev := ans.1, rx := ans.2, trace := s.trace ++ [⟨op :: rest, ans.2⟩], fresh := s.fresh + 1 } := by
  unfold exchange
  rw [answer_of_listens h]

/-- The transaction of a frame the device answers with draws leaves it alone, and all bytes received are draws. -/
theorem exchange_drawn {tx : List Byte} {s : State}
    (h : answer s.params (wpInput s) s.fresh s.dev tx = drawnReply s.fresh s.dev tx) :
    (exchange tx s).dev = s.dev ∧ AllDraws s.fresh (exchange tx s).rx := by
  unfold exchange
  rw [h]
  refine ⟨rfl, fun i hi => ?_⟩
  change (reply _ _ _).getD i 0 = _
  rw [reply_getD (by simpa [drawnReply] using hi)]
  rfl

/-- So does the transaction of a frame whose opcode the device does not listen to. -/
theorem exchange_of_not_listens {op : Byte} {rest : List Byte} {s : State} (h : ¬Listens op s.dev) :
    (exchange (op :: rest) s).dev = s.dev ∧ AllDraws s.fresh (exchange (op :: rest) s).rx :=
  exchange_drawn (answer_of_not_listens h)

/-- The device reads the address of a frame that carries one, modulo the array's size. -/
theorem frameAddr_enc24 (op : Byte) (a : Addr24) (rest : List Byte) :
    frameAddr (op :: (enc24 a ++ rest)) = a.toNat % addrLimit := by
  unfold frameAddr enc24
  change (dec24 (a.extractLsb' 16 8) (a.extractLsb' 8 8) (a.extractLsb' 0 8)).toNat % _ = _
  rw [dec24_enc24]

/-! What an answer does to the device. -/

/-- A frame's address is an address of the array. -/
theorem frameAddr_lt (tx : List Byte) : frameAddr tx < addrLimit := Nat.mod_lt _ (by decide)

/-- Everything an answer can do to the device: nothing; setting or clearing WEL; entering or leaving deep power-down; or
starting a cycle inside the array. A busy device does nothing, one in deep power-down can only leave it. -/
theorem answer_device (p : Params) (wp : Bool) (c : Nat) (d : Device) (tx : List Byte) :
    (answer p wp c d tx).1 = d
      ∨ d.wip = false ∧
        ((answer p wp c d tx).1 = { d with dpd := false }
          ∨ d.dpd = false ∧
            ((∃ b, (answer p wp c d tx).1 = { d with wel := b })
              ∨ (answer p wp c d tx).1 = { d with dpd := true }
              ∨ ∃ y, cycleInArray y = true ∧ (answer p wp c d tx).1 = startCycle y d)) := by
  have hlt := frameAddr_lt tx
  cases tx with
  | nil => exact .inl rfl
  | cons op rest =>
    by_cases hl : Listens op d
    · rw [answer_of_listens hl]
      obtain ⟨h1, h2⟩ := hl
      have hwip : op ≠ 0x05#8 → d.wip = false := fun h => by
        by_contra hc; exact h (h2 (by simpa using hc))
      have hdpd : op ≠ 0xAB#8 → d.dpd = false := fun h => by
        by_contra hc; exact h (h1 (by simpa using hc))
      generalize hr : answerByOpcode p wp c d op (op :: rest) = r
      unfold answerByOpcode at hr
      split at hr
      · subst hr; left; unfold answerRead; split <;> rfl
      split at hr
      · subst_vars
        unfold answerWrite; split
        · refine .inr ⟨hwip (by decide), .inr ⟨hdpd (by decide), .inr (.inr ⟨_, ?_, rfl⟩)⟩⟩
          simpa only [cycleInArray, decide_eq_true_eq] using hlt
        · exact .inl rfl
      split at hr
      · subst_vars; exact .inr ⟨hwip (by decide), .inr ⟨hdpd (by decide), .inl ⟨true, rfl⟩⟩⟩
      split at hr
      · subst_vars; exact .inr ⟨hwip (by decide), .inr ⟨hdpd (by decide), .inl ⟨false, rfl⟩⟩⟩
      split at hr
      · subst hr; exact .inl rfl
      split at hr
      · subst_vars
        unfold answerWrsr; split
        · exact .inr ⟨hwip (by decide), .inr ⟨hdpd (by decide), .inr (.inr ⟨_, rfl, rfl⟩)⟩⟩
        · exact .inl rfl
      split at hr
      · subst_vars
        unfold answerPe; split
        · refine .inr ⟨hwip (by decide), .inr ⟨hdpd (by decide), .inr (.inr ⟨_, ?_, rfl⟩)⟩⟩
          exact decide_eq_true (by simp only [page, pageSize, numPages, addrLimit] at hlt ⊢; omega)
        · exact .inl rfl
      split at hr
      · subst_vars
        unfold answerSe; split
        · refine .inr ⟨hwip (by decide), .inr ⟨hdpd (by decide), .inr (.inr ⟨_, ?_, rfl⟩)⟩⟩
          exact decide_eq_true (by simp only [sector, sectorSize, numSectors, addrLimit] at hlt ⊢; omega)
        · exact .inl rfl
      split at hr
      · subst_vars
        unfold answerCe; split
        · exact .inr ⟨hwip (by decide), .inr ⟨hdpd (by decide), .inr (.inr ⟨_, rfl, rfl⟩)⟩⟩
        · exact .inl rfl
      split at hr
      · subst_vars
        unfold answerRdid; split
        · exact .inr ⟨hwip (by decide), .inl rfl⟩
        · exact .inl rfl
      split at hr
      · subst_vars; exact .inr ⟨hwip (by decide), .inr ⟨hdpd (by decide), .inr (.inl rfl)⟩⟩
      · subst hr; exact .inl rfl
    · rw [answer_of_not_listens hl]; exact .inl rfl

/-- No frame changes the array, the block protection, SRWD or the reserved bits. -/
theorem exchange_device_fixed (tx : List Byte) (s : State) :
    (exchange tx s).dev.arr = s.dev.arr ∧ (exchange tx s).dev.bp = s.dev.bp ∧ (exchange tx s).dev.srwd = s.dev.srwd
      ∧ (exchange tx s).dev.rsv = s.dev.rsv := by
  have h := answer_device s.params (wpInput s) s.fresh s.dev tx
  change (answer s.params (wpInput s) s.fresh s.dev tx).1.arr = _ ∧ _
  change _ ∧ (answer s.params (wpInput s) s.fresh s.dev tx).1.bp = _ ∧
    (answer s.params (wpInput s) s.fresh s.dev tx).1.srwd = _ ∧ (answer s.params (wpInput s) s.fresh s.dev tx).1.rsv = _
  rcases h with h | ⟨-, h | ⟨-, ⟨b, h⟩ | h | ⟨y, -, h⟩⟩⟩ <;> rw [h] <;> simp [startCycle]

@[simp] theorem exchange_arr (tx : List Byte) (s : State) : (exchange tx s).dev.arr = s.dev.arr :=
  (exchange_device_fixed tx s).1
@[simp] theorem exchange_bp (tx : List Byte) (s : State) : (exchange tx s).dev.bp = s.dev.bp :=
  (exchange_device_fixed tx s).2.1
@[simp] theorem exchange_srwd (tx : List Byte) (s : State) : (exchange tx s).dev.srwd = s.dev.srwd :=
  (exchange_device_fixed tx s).2.2.1
@[simp] theorem exchange_rsv (tx : List Byte) (s : State) : (exchange tx s).dev.rsv = s.dev.rsv :=
  (exchange_device_fixed tx s).2.2.2

/-- A frame keeps the device's invariant. -/
theorem exchange_deviceOk {tx : List Byte} {s : State} (h : DeviceOk s.dev) : DeviceOk (exchange tx s).dev := by
  obtain ⟨hm, hw, hy, hd⟩ := h
  have hc := answer_device s.params (wpInput s) s.fresh s.dev tx
  change DeviceOk (answer s.params (wpInput s) s.fresh s.dev tx).1
  rcases hc with h | ⟨hwip, h | ⟨hdpd, ⟨b, h⟩ | h | ⟨y, hin, h⟩⟩⟩ <;> rw [h]
  · exact ⟨hm, hw, hy, hd⟩
  · exact ⟨hm, hw, hy, fun h => by simp at h⟩
  · exact ⟨hm, hw, hy, hd⟩
  · refine ⟨hm, hw, hy, fun _ => ?_⟩
    simpa [hwip] using hw.symm
  · exact ⟨hm, rfl, fun z hz => by simp [startCycle] at hz; exact hz ▸ hin, fun h => by simp [startCycle, hdpd] at h⟩

/-! Frames one by one, where the device listens. -/

/-- RDSR changes nothing, whatever the device's state. -/
@[simp] theorem exchange_rdsr_dev (p : Params) (s : State) : (exchange (encRdsr p) s).dev = s.dev := by
  change (answer s.params (wpInput s) s.fresh s.dev (encRdsr p)).1 = s.dev
  unfold encRdsr
  by_cases hl : Listens 0x05#8 s.dev
  · rw [answer_of_listens hl]; rfl
  · rw [answer_of_not_listens hl]; rfl

/-- Out of deep power-down, the byte RDSR reads is the status byte. -/
theorem exchange_rdsr_byte {p : Params} {s : State} (h : s.dev.dpd = false) :
    rxByte 1 (exchange (encRdsr p) s) = statusByte s.dev := by
  change (answer s.params (wpInput s) s.fresh s.dev (encRdsr p)).2.getD 1 0 = _
  unfold encRdsr
  rw [answer_of_listens ⟨fun hd => by simp [h] at hd, fun _ => rfl⟩]
  change (reply s.fresh 2 _).getD 1 0 = _
  rw [reply_getD (by decide)]
  rfl

/-! The status byte's fields. -/

/-- The status byte of the five fields. -/
theorem statusByte_fields : ∀ (wip wel srwd : Bool) (bp : BitVec 2) (rsv : BitVec 3),
    let v := boolByte srwd <<< 7 ||| rsv.setWidth 8 <<< 4 ||| bp.setWidth 8 <<< 2 ||| boolByte wel <<< 1 ||| boolByte wip
    wipOf v = wip ∧ welOf v = wel ∧ bpOf v = bp.setWidth 8 ∧ srwdOf v = srwd ∧ v.extractLsb' 4 3 = rsv := by
  decide

theorem wipOf_statusByte (d : Device) : wipOf (statusByte d) = d.wip :=
  (statusByte_fields d.wip d.wel d.srwd d.bp d.rsv).1

theorem welOf_statusByte (d : Device) : welOf (statusByte d) = d.wel :=
  (statusByte_fields d.wip d.wel d.srwd d.bp d.rsv).2.1

theorem bpOf_statusByte (d : Device) : bpOf (statusByte d) = d.bp.setWidth 8 :=
  (statusByte_fields d.wip d.wel d.srwd d.bp d.rsv).2.2.1

theorem srwdOf_statusByte (d : Device) : srwdOf (statusByte d) = d.srwd :=
  (statusByte_fields d.wip d.wel d.srwd d.bp d.rsv).2.2.2.1

/-! The end of a cycle. -/

/-- A cycle inside the array leaves the array in canonical form. -/
theorem cycleArray_wf {p : Params} {arr : List Host.Cell} {y : Cycle} (hm : Memory.wf arr)
    (hy : cycleInArray y = true) : Memory.wf (cycleArray p arr y) := by
  cases y with
  | write a d =>
    refine Memory.writePage_wf hm ?_
    simp only [cycleInArray, decide_eq_true_eq, addrLimit] at hy
    simp only [pageBase, pageOff, pageSize, addrLimit]; omega
  | pageErase k =>
    simp only [cycleInArray, decide_eq_true_eq, numPages] at hy
    exact Memory.fill_wf hm (by simp only [pageSize, addrLimit]; omega)
  | sectorErase k =>
    simp only [cycleInArray, decide_eq_true_eq, numSectors] at hy
    exact Memory.fill_wf hm (by simp only [sectorSize, addrLimit]; omega)
  | chipErase => exact Memory.fill_wf hm (by decide)
  | statusWrite v => exact hm

/-- A cycle's end keeps the device's invariant. -/
theorem cycleEffect_deviceOk {p : Params} {y : Cycle} {d : Device} (hm : Memory.wf d.arr)
    (hy : cycleInArray y = true) : DeviceOk (cycleEffect p y d) :=
  ⟨cycleArray_wf hm hy, rfl, fun _ h => by simp [cycleEffect] at h, fun _ => rfl⟩

/-- DevComplete with a cycle inside the array pending. -/
theorem completeCycle_of_pending {s : State} {y : Cycle} (h : s.dev.pending = some y) (hy : cycleInArray y = true) :
    completeCycle s = .ok { s with dev := cycleEffect s.params y s.dev } := by
  simp [completeCycle, h, hy]

end Sys2Proof.Machine
end

