-- ==== Sys2Proof/Laws/Sequencer.lean ====
section
/-! SUPPORT. The poll and the WRITE loop: what each shared piece of the sequencer can do. -/

namespace Sys2Proof.Machine

/-! Frames on the sequencer's operations. -/

/-- Going on after a poll's answer changes the sequencer and the response only. -/
theorem pollAnswer_keeps (e : PollEnd) (s : State) :
    (pollAnswer e s).params = s.params ∧ (pollAnswer e s).st = s.st ∧ (pollAnswer e s).cmd = s.cmd
      ∧ (pollAnswer e s).holdN = s.holdN ∧ (pollAnswer e s).wpN = s.wpN ∧ (pollAnswer e s).dev = s.dev
      ∧ (pollAnswer e s).rx = s.rx ∧ (pollAnswer e s).trace = s.trace ∧ (pollAnswer e s).inputs = s.inputs
      ∧ (pollAnswer e s).sched = s.sched := by
  unfold pollAnswer
  split
  · unfold pollBusy
    split
    · simp [stopAtSleep]
    · split <;> simp [stopAtSleep, countBusy]
  · cases e <;> simp [pollReturn]

/-- So does the top of WRITE's loop. -/
theorem writeLoop_keeps (cap : Nat) (s : State) :
    (writeLoop cap s).params = s.params ∧ (writeLoop cap s).st = s.st ∧ (writeLoop cap s).cmd = s.cmd
      ∧ (writeLoop cap s).holdN = s.holdN ∧ (writeLoop cap s).wpN = s.wpN ∧ (writeLoop cap s).dev = s.dev
      ∧ (writeLoop cap s).rx = s.rx ∧ (writeLoop cap s).trace = s.trace ∧ (writeLoop cap s).inputs = s.inputs
      ∧ (writeLoop cap s).sched = s.sched := by
  unfold writeLoop checkChunk
  split
  · simp
  · split
    · simp [setChunk]
    · split <;> simp [setChunk]

/-- Going on after any answer changes the sequencer and the response only. -/
theorem resume_keeps (k : Cont) (s : State) :
    (resume k s).params = s.params ∧ (resume k s).st = s.st ∧ (resume k s).cmd = s.cmd
      ∧ (resume k s).holdN = s.holdN ∧ (resume k s).wpN = s.wpN ∧ (resume k s).dev = s.dev
      ∧ (resume k s).rx = s.rx ∧ (resume k s).trace = s.trace ∧ (resume k s).inputs = s.inputs
      ∧ (resume k s).sched = s.sched := by
  cases k with
  | poll e => exact pollAnswer_keeps e s
  | subWrite => exact writeLoop_keeps _ _
  | thenPoll => simp [resume]
  | finish => simp [resume]

/-- Going on after a transaction issues nothing more. -/
theorem resume_issues (tx : List Byte) (k : Cont) (s : State) : Issues tx s (resume k (exchange tx s)) := by
  obtain ⟨h1, h2⟩ := exchange_issues tx s
  obtain ⟨-, -, -, -, -, -, h7, h8, -⟩ := resume_keeps k (exchange tx s)
  exact ⟨h7 ▸ h1, by rw [h7, h8]; exact h2⟩

/-- A poll of a device that answers and is idle returns. -/
theorem pollAnswer_of_idle {e : PollEnd} {p : Params} {s : State} (h1 : s.dev.dpd = false) (h2 : s.dev.wip = false) :
    pollAnswer e (exchange (encRdsr p) s) = pollReturn e (exchange (encRdsr p) s) := by
  unfold pollAnswer
  rw [if_neg]
  rw [exchange_rdsr_byte h1, wipOf_statusByte, h2]
  decide

/-! The WRITE loop. -/

/-- `N` holds a size of at most a page. -/
theorem setChunk_n {k : Nat} (s : State) (h : k ≤ pageSize) : (setChunk k s).seq.n.toNat = k := by
  simp only [pageSize] at h
  simp only [setChunk, BitVec.toNat_ofNat]
  omega

/-- The registers after a sub-write of at most what is left, with the payload's end inside the array: no width of rule
R102 overflows. -/
theorem advance_seq {s : State} (hn : s.seq.n.toNat ≤ s.seq.rem.toNat) (ha : s.seq.a.toNat + s.seq.rem.toNat ≤ addrLimit)
    (ho : s.seq.off.toNat + s.seq.rem.toNat ≤ addrLimit) :
    (advance s).seq.a.toNat = s.seq.a.toNat + s.seq.n.toNat ∧ (advance s).seq.off.toNat = s.seq.off.toNat + s.seq.n.toNat
      ∧ (advance s).seq.rem.toNat = s.seq.rem.toNat - s.seq.n.toNat := by
  simp only [addrLimit] at ha ho
  have := s.seq.n.isLt
  simp only [advance, BitVec.toNat_add, BitVec.toNat_sub, BitVec.toNat_setWidth]
  omega

/-- With its bytes in range and a cap that stays in the page, the loop passes both checks (the argument of rules R522 and
R526): it polls before the next sub-write, or for the last time. -/
theorem writeLoop_of_inRange {cap : Nat} {s : State} (hr : s.seq.a.toNat + s.seq.rem.toNat ≤ addrLimit) (h1 : 1 ≤ cap)
    (hp : pageOff s.seq.a.toNat + cap ≤ pageSize) :
    writeLoop cap s =
      if s.seq.rem = 0 then startPoll .done s
      else startPoll .subWrite (setChunk (min cap s.seq.rem.toNat) s) := by
  unfold writeLoop
  split
  · rfl
  · rename_i hrem
    have hpos : s.seq.rem.toNat ≠ 0 := fun h => hrem (BitVec.eq_of_toNat_eq h)
    have hn := setChunk_n (k := min cap s.seq.rem.toNat) s (by omega)
    have hin : inRange (s.seq.a.toNat : Int) (min cap s.seq.rem.toNat) = true := by
      simp only [inRange, addrLimit] at hr ⊢
      simp; omega
    have hpage : page s.seq.a.toNat = page (s.seq.a.toNat + min cap s.seq.rem.toNat - 1) := by
      simp only [page, pageOff, pageSize] at hp ⊢
      omega
    unfold checkChunk chunkSize
    rw [hn, if_neg, if_neg]
    · exact not_not.mpr hpage
    · change ¬inRange (s.seq.a.toNat : Int) (min cap s.seq.rem.toNat) = false
      simp [hin]

/-- The first cap reaches the next page boundary. -/
theorem firstCap_spec (a : Nat) : 1 ≤ firstCap a ∧ pageOff a + firstCap a = pageSize := by
  simp only [firstCap, pageOff, pageSize]
  omega

/-- A sub-write's payload has `N` bytes. -/
theorem chunkData_length {s : State} (h : WriteRegsOk s) : (chunkData s).length = s.seq.n.toNat := by
  obtain ⟨h1, -, -, -, h5, -⟩ := h
  simp [chunkData]; omega

/-- A sub-write's frame is a WRITE of rule R301. -/
theorem decodeFrame_chunkFrame {s : State} (h : WriteRegsOk s) :
    decodeFrame (chunkFrame s) = .ok (.spiWrite (s.seq.a.setWidth 24) (chunkData s)) := by
  refine decodeFrame_encWrite _ _ ?_
  rw [chunkData_length h]
  obtain ⟨-, -, -, h4, -, h6, -⟩ := h
  simp only [pageSize] at h6
  omega

/-- A poll's start satisfies the poll counter's bound. -/
theorem startPoll_pollsOk (e : PollEnd) (s : State) : PollsOk (startPoll e s) := fun _ _ h => h

/-- A sub-write of a page's rest, or of the payload's, has registers as the invariant wants them. -/
theorem setChunk_writeRegsOk {cap : Nat} {s : State} (h0 : s.seq.rem ≠ 0)
    (hl : s.seq.off.toNat + s.seq.rem.toNat = s.cmd.data.length) (hd : s.cmd.data.length ≤ addrLimit)
    (hr : s.seq.a.toNat + s.seq.rem.toNat ≤ addrLimit) (h1 : 1 ≤ cap) (hp : pageOff s.seq.a.toNat + cap = pageSize) :
    WriteRegsOk (setChunk (min cap s.seq.rem.toNat) s) := by
  have hpos : s.seq.rem.toNat ≠ 0 := fun h => h0 (BitVec.eq_of_toNat_eq h)
  have hn := setChunk_n (k := min cap s.seq.rem.toNat) s (by omega)
  refine ⟨hl, hd, hr, ?_, ?_, ?_, ?_⟩ <;> rw [hn]
  · omega
  · change min cap s.seq.rem.toNat ≤ s.seq.rem.toNat; omega
  · change pageOff s.seq.a.toNat + min cap s.seq.rem.toNat ≤ pageSize; omega
  · change min cap s.seq.rem.toNat = s.seq.rem.toNat ∨ pageOff (s.seq.a.toNat + min cap s.seq.rem.toNat) = 0
    by_cases hc : s.seq.rem.toNat ≤ cap
    · left; omega
    · right
      rw [min_eq_left (by omega)]
      simp only [pageOff, pageSize] at hp ⊢
      omega

/-- The loop's top leaves `PHASE` where the invariant wants it, and never answers PAGE_BOUNDARY. -/
theorem writeLoop_phaseOk {cap : Nat} {s : State} (hl : s.seq.off.toNat + s.seq.rem.toNat = s.cmd.data.length)
    (hd : s.cmd.data.length ≤ addrLimit) (hr : s.seq.a.toNat + s.seq.rem.toNat ≤ addrLimit) (h1 : 1 ≤ cap)
    (hp : pageOff s.seq.a.toNat + cap = pageSize) :
    PhaseOk (writeLoop cap s) ∧ (writeLoop cap s).busy = true ∧ (writeLoop cap s).phase ≠ .idle
      ∧ (writeLoop cap s).rspCode = s.rspCode := by
  rw [writeLoop_of_inRange hr h1 hp.le]
  split
  · exact ⟨⟨rfl, startPoll_pollsOk _ _⟩, rfl, by simp, rfl⟩
  · rename_i h0
    exact ⟨⟨rfl, setChunk_writeRegsOk h0 hl hd hr h1 hp, startPoll_pollsOk _ _⟩, rfl, by simp, rfl⟩

end Sys2Proof.Machine
end

