-- ==== Sys2Proof/Laws/Commands.lean ====
section
/-! SUPPORT. The meanings of the commands: what none of them changes, and that each answers. -/

namespace Sys2Proof.Machine

theorem whenReady_ready {body : State → State} {s : State} (h : s.st = .ready) : whenReady body s = body s := by
  simp [whenReady, h]

theorem whenReady_uninit {body : State → State} {s : State} (h : s.st = .uninit) :
    whenReady body s = raise .notReady s := by
  simp [whenReady, h]

/-- What no instruction changes, and how far its trace can grow. -/
def Mild (s t : State) : Prop :=
  t.params = s.params ∧ t.inputs = s.inputs ∧ t.sched = s.sched ∧ t.dev.arr = s.dev.arr ∧ t.dev.bp = s.dev.bp
    ∧ t.dev.srwd = s.dev.srwd ∧ t.dev.rsv = s.dev.rsv ∧ (t.trace = s.trace ∨ ∃ x, t.trace = s.trace ++ [x])

theorem mild_exchange (tx : List Byte) (s : State) : Mild s (exchange tx s) := by simp [Mild]

theorem mild_raise (c : ResultCode) (s : State) : Mild s (raise c s) := by simp [Mild]

/-- Going on after a state change that keeps these keeps them. -/
theorem mild_resume {s t : State} (k : Cont) (h : Mild s t) : Mild s (resume k t) := by
  obtain ⟨h1, -, -, -, -, h6, -, h8, h9, h10⟩ := resume_keeps k t
  simpa [Mild, h1, h6, h8, h9, h10] using h

theorem mild_startPoll {s t : State} (e : PollEnd) (h : Mild s t) : Mild s (startPoll e t) := h

/-- WRITE's first step: its payload in CMD_DATA, and the loop from the first cap. -/
theorem startWrite_keeps (addr : Word32) (data : List Byte) (s : State) :
    (startWrite addr data s).params = s.params ∧ (startWrite addr data s).st = s.st
      ∧ (startWrite addr data s).cmd = { s.cmd with data := data } ∧ (startWrite addr data s).holdN = s.holdN
      ∧ (startWrite addr data s).wpN = s.wpN ∧ (startWrite addr data s).dev = s.dev
      ∧ (startWrite addr data s).rx = s.rx ∧ (startWrite addr data s).trace = s.trace
      ∧ (startWrite addr data s).inputs = s.inputs ∧ (startWrite addr data s).sched = s.sched := by
  obtain ⟨h1, h2, h3, h4, h5, h6, h7, h8, h9, h10⟩ := writeLoop_keeps
    (firstCap (addr.setWidth 18).toNat)
    { s with
      cmd := { s.cmd with data := data }
      seq := { s.seq with a := addr.setWidth 18, off := 0, rem := BitVec.ofNat 18 data.length } }
  exact ⟨h1, h2, h3, h4, h5, h6, h7, h8, h9, h10⟩

/-- Issuing the frame PHASE stands before keeps them, where what stands there does. -/
theorem mild_issueAtPhase {s t : State} (h : Mild s t) (ht : t.trace = s.trace) : Mild s (issueAtPhase t) := by
  unfold issueAtPhase
  split
  · refine mild_resume _ ?_
    obtain ⟨h1, h2, h3, h4, h5, h6, h7, -⟩ := h
    simp [Mild, h1, h2, h3, h4, h5, h6, h7, ht]
  · exact h

/-- Every instruction answers, and changes none of these. -/
theorem exec_mild (i : Instr) (s : State) : ∃ t, exec i s = .next t ∧ Mild s t := by
  have hready : ∀ body : State → State, (s.st = .ready → Mild s (body s)) → Mild s (whenReady body s) := by
    intro body hb
    cases hst : s.st with
    | ready => rw [whenReady_ready hst]; exact hb hst
    | uninit => rw [whenReady_uninit hst]; exact mild_raise _ _
  have hget : ∀ f : Byte → Byte, Mild s (getField f s) := fun f => mild_exchange _ s
  have hset : ∀ f : Byte → Byte, Mild s (setField f s) := fun f => mild_exchange _ s
  cases i
  case cmdInit =>
    refine ⟨_, rfl, ?_⟩
    have : Mild s (exchange (encRdid s.params) (driveLinesInactive s)) := by
      unfold driveLinesInactive
      split <;> simp [Mild]
    unfold checkIdentity
    split <;> exact this
  case cmdRead addr len =>
    refine ⟨_, rfl, hready _ fun _ => ?_⟩
    split
    · exact mild_exchange _ s
    · exact mild_raise _ _
  case cmdWrite addr data =>
    refine ⟨_, rfl, hready _ fun _ => ?_⟩
    split
    · obtain ⟨h1, -, -, -, -, h6, -, h8, h9, h10⟩ := startWrite_keeps addr data s
      exact mild_issueAtPhase (by simp [Mild, h1, h6, h8, h9, h10]) h8
    · exact mild_raise _ _
  case cmdReadStatus => exact ⟨_, rfl, hready _ fun _ => hget _⟩
  case cmdWriteStatus arg => exact ⟨_, rfl, hready _ fun _ => mild_exchange (encWrsr arg) s⟩
  case cmdGetWel => exact ⟨_, rfl, hready _ fun _ => hget _⟩
  case cmdSetWel arg =>
    refine ⟨_, rfl, hready _ fun _ => ?_⟩
    split
    · exact mild_raise _ _
    · exact mild_exchange encWren s
    · exact mild_exchange encWrdi s
  case cmdGetWip => exact ⟨_, rfl, hready _ fun _ => hget _⟩
  case cmdGetBp => exact ⟨_, rfl, hready _ fun _ => hget _⟩
  case cmdSetBp arg =>
    refine ⟨_, rfl, hready _ fun _ => ?_⟩
    split
    · exact mild_raise _ _
    · exact hset _
  case cmdGetSrwd => exact ⟨_, rfl, hready _ fun _ => hget _⟩
  case cmdSetSrwd arg =>
    refine ⟨_, rfl, hready _ fun _ => ?_⟩
    split
    · exact mild_raise _ _
    · exact hset _
  case cmdErasePage addr =>
    refine ⟨_, rfl, hready _ fun _ => ?_⟩
    unfold eraseAt
    split
    · exact mild_raise _ _
    · exact mild_exchange (encPe (fieldAddr addr)) s
  case cmdEraseSector addr =>
    refine ⟨_, rfl, hready _ fun _ => ?_⟩
    unfold eraseAt
    split
    · exact mild_raise _ _
    · exact mild_exchange (encSe (fieldAddr addr)) s
  case cmdEraseChip => exact ⟨_, rfl, hready _ fun _ => mild_exchange encCe s⟩
  case cmdDeepPowerDown => exact ⟨_, rfl, hready _ fun _ => mild_exchange encDpd s⟩
  case cmdWake => exact ⟨_, rfl, hready _ fun _ => mild_exchange (encRdid s.params) s⟩
  case cmdReserved op => exact ⟨_, rfl, mild_raise _ _⟩
  all_goals exact ⟨_, rfl, mild_exchange _ s⟩

/-- Every instruction but INIT leaves ST alone. -/
theorem exec_st {i : Instr} {s t : State} (hi : i ≠ .cmdInit) (h : exec i s = .next t) : t.st = s.st := by
  have hready : ∀ body : State → State, (body s).st = s.st → (whenReady body s).st = s.st := by
    intro body hb
    cases hst : s.st with
    | ready => rw [whenReady_ready hst, hb, hst]
    | uninit => rw [whenReady_uninit hst, raise_st, hst]
  cases i
  case cmdInit => exact absurd rfl hi
  case cmdRead addr len =>
    (injection h with h; subst h)
    refine hready _ ?_
    split <;> rfl
  case cmdWrite addr data =>
    (injection h with h; subst h)
    refine hready _ ?_
    split
    · have h2 := (startWrite_keeps addr data s).2.1
      unfold issueAtPhase
      split
      · rw [(resume_keeps _ _).2.1, exchange_st, h2]
      · exact h2
    · rfl
  case cmdSetWel arg =>
    (injection h with h; subst h)
    refine hready _ ?_
    split <;> rfl
  case cmdSetBp arg =>
    (injection h with h; subst h)
    refine hready _ ?_
    split <;> rfl
  case cmdSetSrwd arg =>
    (injection h with h; subst h)
    refine hready _ ?_
    split <;> rfl
  case cmdErasePage addr =>
    (injection h with h; subst h)
    refine hready _ ?_
    unfold eraseAt
    split <;> rfl
  case cmdEraseSector addr =>
    (injection h with h; subst h)
    refine hready _ ?_
    unfold eraseAt
    split <;> rfl
  case cmdReserved op => (injection h with h; subst h); rfl
  case cmdReadStatus => (injection h with h; subst h); exact hready _ rfl
  case cmdWriteStatus arg => (injection h with h; subst h); exact hready _ rfl
  case cmdGetWel => (injection h with h; subst h); exact hready _ rfl
  case cmdGetWip => (injection h with h; subst h); exact hready _ rfl
  case cmdGetBp => (injection h with h; subst h); exact hready _ rfl
  case cmdGetSrwd => (injection h with h; subst h); exact hready _ rfl
  case cmdEraseChip => (injection h with h; subst h); exact hready _ rfl
  case cmdDeepPowerDown => (injection h with h; subst h); exact hready _ rfl
  case cmdWake => (injection h with h; subst h); exact hready _ rfl
  all_goals (injection h with h; rw [← h]; rfl)

end Sys2Proof.Machine
end

