-- ==== Sys2Proof/Laws/PerInstr.lean ====
section
/-! SUPPORT. Statements about every instruction as syntax. Format: a well-formed instruction's words are in its own space,
a frame with an opcode of rule R300 and no shorter than its format of rule R301, or a command whose code is one of rule
R330 or reserved. -/

namespace Sys2Proof.Laws.Format

/-- The words of `i` have the format of `i`'s space. -/
def Statement (i : Instr) : Prop :=
  wellFormed i = true → ∀ p,
    match encode p i with
    | .frame tx =>
      isSpi i = true ∧ ∃ op rest len, tx = op :: rest ∧ minFrameLength op = some len ∧ len ≤ tx.length
    | .command r => isSpi i = false ∧ (r.op.toNat ≤ 0x10 ∨ i = .cmdReserved r.op)

theorem spiRead (addr : Addr24) (n : Nat) : Statement (.spiRead addr n) := fun _ _ =>
  ⟨rfl, 0x03#8, _, 4, rfl, rfl, by simp [encRead]⟩
theorem spiWrite (addr : Addr24) (data : List Byte) : Statement (.spiWrite addr data) := fun h _ =>
  ⟨rfl, 0x02#8, _, 5, rfl, rfl, by simp [wellFormed] at h; simp [encWrite]; omega⟩
theorem spiWren : Statement .spiWren := fun _ _ => ⟨rfl, 0x06#8, _, 1, rfl, rfl, le_refl _⟩
theorem spiWrdi : Statement .spiWrdi := fun _ _ => ⟨rfl, 0x04#8, _, 1, rfl, rfl, le_refl _⟩
theorem spiRdsr : Statement .spiRdsr := fun _ _ => ⟨rfl, 0x05#8, _, 2, rfl, rfl, le_refl _⟩
theorem spiWrsr (v : Byte) : Statement (.spiWrsr v) := fun _ _ => ⟨rfl, 0x01#8, _, 2, rfl, rfl, le_refl _⟩
theorem spiPe (addr : Addr24) : Statement (.spiPe addr) := fun _ _ => ⟨rfl, 0x42#8, _, 4, rfl, rfl, le_refl _⟩
theorem spiSe (addr : Addr24) : Statement (.spiSe addr) := fun _ _ => ⟨rfl, 0xD8#8, _, 4, rfl, rfl, le_refl _⟩
theorem spiCe : Statement .spiCe := fun _ _ => ⟨rfl, 0xC7#8, _, 1, rfl, rfl, le_refl _⟩
theorem spiRdid : Statement .spiRdid := fun _ _ => ⟨rfl, 0xAB#8, _, 5, rfl, rfl, le_refl _⟩
theorem spiDpd : Statement .spiDpd := fun _ _ => ⟨rfl, 0xB9#8, _, 1, rfl, rfl, le_refl _⟩
theorem cmdInit : Statement .cmdInit := fun _ _ => ⟨rfl, .inl (by decide)⟩
theorem cmdRead (addr len : Word32) : Statement (.cmdRead addr len) := fun _ _ => ⟨rfl, .inl (by simp [commandRegs])⟩
theorem cmdWrite (addr : Word32) (data : List Byte) : Statement (.cmdWrite addr data) := fun _ _ =>
  ⟨rfl, .inl (by simp [commandRegs])⟩
theorem cmdReadStatus : Statement .cmdReadStatus := fun _ _ => ⟨rfl, .inl (by decide)⟩
theorem cmdWriteStatus (arg : Byte) : Statement (.cmdWriteStatus arg) := fun _ _ =>
  ⟨rfl, .inl (by simp [commandRegs])⟩
theorem cmdGetWel : Statement .cmdGetWel := fun _ _ => ⟨rfl, .inl (by decide)⟩
theorem cmdSetWel (arg : Byte) : Statement (.cmdSetWel arg) := fun _ _ => ⟨rfl, .inl (by simp [commandRegs])⟩
theorem cmdGetWip : Statement .cmdGetWip := fun _ _ => ⟨rfl, .inl (by decide)⟩
theorem cmdGetBp : Statement .cmdGetBp := fun _ _ => ⟨rfl, .inl (by decide)⟩
theorem cmdSetBp (arg : Byte) : Statement (.cmdSetBp arg) := fun _ _ => ⟨rfl, .inl (by simp [commandRegs])⟩
theorem cmdGetSrwd : Statement .cmdGetSrwd := fun _ _ => ⟨rfl, .inl (by decide)⟩
theorem cmdSetSrwd (arg : Byte) : Statement (.cmdSetSrwd arg) := fun _ _ => ⟨rfl, .inl (by simp [commandRegs])⟩
theorem cmdErasePage (addr : Word32) : Statement (.cmdErasePage addr) := fun _ _ =>
  ⟨rfl, .inl (by simp [commandRegs])⟩
theorem cmdEraseSector (addr : Word32) : Statement (.cmdEraseSector addr) := fun _ _ =>
  ⟨rfl, .inl (by simp [commandRegs])⟩
theorem cmdEraseChip : Statement .cmdEraseChip := fun _ _ => ⟨rfl, .inl (by decide)⟩
theorem cmdDeepPowerDown : Statement .cmdDeepPowerDown := fun _ _ => ⟨rfl, .inl (by decide)⟩
theorem cmdWake : Statement .cmdWake := fun _ _ => ⟨rfl, .inl (by decide)⟩
theorem cmdReserved (op : BitVec 5) : Statement (.cmdReserved op) := fun _ _ => ⟨rfl, .inr rfl⟩

end Sys2Proof.Laws.Format
end

