-- ==== Sys2Proof/Laws/Step.lean ====
section
/-! SUPPORT. What a step can do: whose turn it is, exec of an SPI instruction, and the step's cases. -/

namespace Sys2Proof.Machine

/-! Turns. -/

/-- Taking a turn uses up the environment's choice and the free counter, and nothing else. -/
theorem takeTurn_snd (s : State) : ∃ ts n, (takeTurn s).2 = { s with sched := ts, fresh := n } := by
  unfold takeTurn
  split
  · exact ⟨_, _, rfl⟩
  · split
    · exact ⟨_, _, rfl⟩
    · exact ⟨_, _, rfl⟩

theorem takeTurn_eq {s t : State} {w : Turn} (h : takeTurn s = (w, t)) :
    ∃ ts n, t = { s with sched := ts, fresh := n } := by
  obtain ⟨ts, n, hs⟩ := takeTurn_snd s
  exact ⟨ts, n, by rw [← hs, h]⟩

/-- The device takes a turn only with a cycle pending. -/
theorem takeTurn_device {s t : State} (h : takeTurn s = (.device, t)) : ∃ y, s.dev.pending = some y := by
  cases hp : s.dev.pending with
  | some y => exact ⟨y, rfl⟩
  | none =>
    unfold takeTurn at h
    split at h
    · rename_i w _ _
      cases w <;> simp [enabledTurn, hp] at h
    · simp [hp] at h

/-- With no choice of the environment's left and no cycle pending, the block moves. -/
theorem takeTurn_quiet {s : State} (h1 : s.sched = []) (h2 : s.dev.pending = none) : takeTurn s = (.block, s) := by
  simp [takeTurn, h1, h2]

/-- The environment gives the block the turn. -/
theorem takeTurn_block {s : State} {ts : List Turn} (h : s.sched = .block :: ts) :
    takeTurn s = (.block, { s with sched := ts }) := by
  simp [takeTurn, h, enabledTurn]

/-! exec. -/

/-- An SPI instruction is the transaction of its own frame. -/
theorem exec_spi {p : Params} {i : Instr} {s : State} {tx : List Byte} (hi : isSpi i = true) (hp : p = s.params)
    (htx : encode p i = .frame tx) : exec i s = .next (exchange tx s) := by
  subst hp
  cases i <;> simp [isSpi] at hi <;> simp only [encode, Words.frame.injEq] at htx <;> subst htx <;> rfl

/-- A frame that decodes is an SPI instruction's. -/
theorem isSpi_of_decodeFrame {tx : List Byte} {i : Instr} (h : decodeFrame tx = .ok i) : isSpi i = true := by
  rcases decodeFrame_ok h with ⟨_, _, _, _, -, rfl⟩ | ⟨_, _, _, _, -, rfl, -⟩ | ⟨-, rfl⟩ | ⟨-, rfl⟩ | ⟨_, -, rfl⟩
    | ⟨_, -, rfl⟩ | ⟨_, _, _, -, rfl⟩ | ⟨_, _, _, -, rfl⟩ | ⟨-, rfl⟩ | ⟨_, _, _, _, -, rfl⟩ | ⟨-, rfl⟩ <;> simp [isSpi]

/-- The frame of an SPI instruction. -/
def spiFrame (p : Params) (i : Instr) : List Byte :=
  match encode p i with
  | .frame tx => tx
  | .command _ => []

theorem encode_of_isSpi {i : Instr} (p : Params) (h : isSpi i = true) : encode p i = .frame (spiFrame p i) := by
  cases i <;> first | rfl | simp [isSpi] at h

/-! The step's cases. -/

theorem step_of_done {s t : State} (h : nextMove s = .done t) : step s = .next t := by
  simp [step, h]

/-- The block's move at a command. -/
theorem step_command {s t : State} (h : takeTurn s = (.block, t)) (hp : t.phase = .decode) :
    step s = exec (decodeCommand t.cmd) t := by
  simp [step, nextMove, h, blockMove, hp]

/-- The block's move at a frame that decodes: the transaction of the decoded instruction's frame, then the command's use
of the answer. -/
theorem step_frame {s t : State} {tx : List Byte} {k : Cont} {i : Instr} (h : takeTurn s = (.block, t))
    (hp : t.phase = .xfer tx k) (hd : decodeFrame tx = .ok i) :
    step s = .next (resume k (exchange (spiFrame t.params i) t)) := by
  have hi := isSpi_of_decodeFrame hd
  simp only [step, nextMove, h, blockMove, hp, hd]
  rw [exec_spi hi rfl (encode_of_isSpi _ hi)]

/-- The device's move. -/
theorem step_device {s t : State} {y : Cycle} (h : takeTurn s = (.device, t)) (hp : s.dev.pending = some y)
    (hy : cycleInArray y = true) : step s = .next { t with dev := cycleEffect s.params y s.dev } := by
  obtain ⟨ts, n, rfl⟩ := takeTurn_eq h
  simp [step, nextMove, h, deviceMove, completeCycle, hp, hy]

/-- Everything a step that answers can have done. -/
theorem step_cases {s t : State} (h : step s = .next t) :
    (∃ u, takeTurn s = (.reset, u) ∧ t = blockReset u)
      ∨ (∃ u y, takeTurn s = (.device, u) ∧ s.dev.pending = some y ∧ cycleInArray y = true
          ∧ t = { u with dev := cycleEffect s.params y s.dev })
      ∨ ∃ u, takeTurn s = (.block, u) ∧
        ((u.phase = .idle ∧ t = accept u)
          ∨ (u.phase = .decode ∧ exec (decodeCommand u.cmd) u = .next t)
          ∨ (∃ e, u.phase = .sleep e ∧ t = pollAgain e u)
          ∨ (∃ tx k i, u.phase = .xfer tx k ∧ decodeFrame tx = .ok i
              ∧ t = resume k (exchange (spiFrame u.params i) u))
          ∨ ∃ tx k e, u.phase = .xfer tx k ∧ decodeFrame tx = .error e ∧ t = resume k (exchange tx u)) := by
  rcases hturn : takeTurn s with ⟨w, u⟩
  cases w with
  | reset =>
    left
    refine ⟨u, rfl, ?_⟩
    simpa [step, nextMove, hturn] using h.symm
  | device =>
    right; left
    obtain ⟨y, hy⟩ := takeTurn_device hturn
    have hu : u.dev.pending = some y := by
      obtain ⟨ts, n, rfl⟩ := takeTurn_eq hturn; exact hy
    by_cases hin : cycleInArray y = true
    · refine ⟨u, y, rfl, hy, hin, ?_⟩
      rw [step_device hturn hy hin] at h
      simpa using h.symm
    · simp [step, nextMove, hturn, deviceMove, completeCycle, hu, hin] at h
  | block =>
    right; right
    refine ⟨u, rfl, ?_⟩
    cases hp : u.phase with
    | idle => left; exact ⟨rfl, by simpa [step, nextMove, hturn, blockMove, hp] using h.symm⟩
    | decode => right; left; exact ⟨rfl, by rw [← step_command hturn hp]; exact h⟩
    | sleep e => right; right; left; exact ⟨e, rfl, by simpa [step, nextMove, hturn, blockMove, hp] using h.symm⟩
    | xfer tx k =>
      right; right; right
      cases hd : decodeFrame tx with
      | ok i =>
        left
        refine ⟨tx, k, i, rfl, hd, ?_⟩
        rw [step_frame hturn hp hd] at h
        simpa using h.symm
      | error e =>
        right
        refine ⟨tx, k, e, rfl, hd, ?_⟩
        simpa [step, nextMove, hturn, blockMove, hp, hd] using h.symm

end Sys2Proof.Machine
end

