-- ==== Sys2Proof/Tests/Slice0.lean ====
section
/-! SUPPORT. The model's own tests. Expected values are the vectors V01 to V85 of 95_test_vectors.md and the encoding
tables of 30_encoding.md; the vector stands before each test. Then a witness for each obligation that has hypotheses. -/

namespace Sys2Proof.Tests

open Sys2Proof.Machine

/-! Helpers. -/

/-- The block ready, with this device. -/
def ready (d : Device) : State := { State.reset with st := .ready, dev := d }

/-- A device at power-up with these status fields. -/
def device (wip wel : Bool) (bp : BitVec 2) (rsv : BitVec 3) (srwd : Bool) : Device :=
  { Device.powerUp with wip := wip, wel := wel, bp := bp, rsv := rsv, srwd := srwd }

/-- The state after an instruction; the state before it where it does not answer. -/
def after (i : Instr) (s : State) : State :=
  match exec i s with
  | .next t => t
  | _ => s

/-- The state after one step. -/
def stepped (s : State) : State :=
  match step s with
  | .next t => t
  | _ => s

/-- The block ready before a busy device, with this limit on its poll. -/
def limited (limit : Nat) : State :=
  { ready (device true false 0 0 false) with params := { Params.default with pollLimit := some limit } }

/-- The sequencer before an RDSR of a poll with this many busy readings so far. -/
def polling (d : Device) (limit : Option Nat) (polls : Nat) : State :=
  { ready d with
    params := { Params.default with pollLimit := limit }
    busy := true
    phase := .xfer [0x05#8, 0x00#8] (.poll .done)
    seq := { Seq.reset with polls := polls }
    sched := [.block] }

/-! WellFormed: an ill-formed term for each check. -/

/-- Rule R301: a WRITE frame carries at least one byte. -/
theorem test_wellFormed_no_empty_write : wellFormed (.spiWrite 0#24 []) = false := by decide

/-- Rule R301: and at most 256. -/
theorem test_wellFormed_no_long_write (a : Addr24) (b : Byte) : wellFormed (.spiWrite a (List.replicate 257 b)) = false := by
  simp only [wellFormed, List.length_replicate]
  decide

/-- Rule R104: a WRITE command's length fits CMD_LEN. -/
theorem test_wellFormed_no_huge_write (a : Word32) (data : List Byte) (h : data.length = 2 ^ 32) :
    wellFormed (.cmdWrite a data) = false := by
  simp only [wellFormed, h]
  decide

/-- Rule R332: 0x10 is WAKE, not reserved. -/
theorem test_wellFormed_reserved_codes :
    wellFormed (.cmdReserved 0x10#5) = false ∧ wellFormed (.cmdReserved 0x11#5) = true := by decide

/-! Decoding: every constructor, by words written out from the spec's encodings. -/

/-- V01, V13. -/
theorem test_decode_read :
    decodeFrame [0x03#8, 0x00#8, 0x01#8, 0xF0#8, 0x00#8, 0x00#8] = .ok (.spiRead 0x1F0#24 2)
      ∧ decodeFrame [0x03#8, 0x00#8, 0x00#8, 0x00#8] = .ok (.spiRead 0#24 0) := by decide

/-- V02. -/
theorem test_decode_write : decodeFrame [0x02#8, 0x01#8, 0xFF#8, 0xFF#8, 0xAB#8] = .ok (.spiWrite 0x1FFFF#24 [0xAB#8]) := by
  decide

/-- V03, V04, V09, V11. -/
theorem test_decode_opcode_alone :
    decodeFrame [0x06#8] = .ok .spiWren ∧ decodeFrame [0x04#8] = .ok .spiWrdi ∧ decodeFrame [0xC7#8] = .ok .spiCe
      ∧ decodeFrame [0xB9#8] = .ok .spiDpd := by decide

/-- V05, V06, V21. -/
theorem test_decode_status :
    decodeFrame [0x05#8, 0x00#8] = .ok .spiRdsr ∧ decodeFrame [0x05#8, 0xFF#8] = .ok .spiRdsr
      ∧ decodeFrame [0x01#8, 0x8C#8] = .ok (.spiWrsr 0x8C#8) := by decide

/-- V07, V08. -/
theorem test_decode_erase :
    decodeFrame [0x42#8, 0x00#8, 0x12#8, 0x34#8] = .ok (.spiPe 0x1234#24)
      ∧ decodeFrame [0xD8#8, 0x01#8, 0x80#8, 0x00#8] = .ok (.spiSe 0x18000#24) := by decide

/-- V10, V21. -/
theorem test_decode_rdid :
    decodeFrame [0xAB#8, 0x00#8, 0x00#8, 0x00#8, 0x00#8] = .ok .spiRdid
      ∧ decodeFrame [0xAB#8, 0xA5#8, 0xA5#8, 0xA5#8, 0xFF#8] = .ok .spiRdid := by decide

/-- Rules R300, R301: no other opcode, no other length. -/
theorem test_decode_rejects :
    decodeFrame [] = .error .emptyFrame ∧ decodeFrame [0x07#8] = .error (.unknownOpcode 0x07#8)
      ∧ decodeFrame [0x03#8, 0x00#8, 0x00#8] = .error (.badLength 0x03#8 3)
      ∧ decodeFrame [0x02#8, 0x00#8, 0x00#8, 0x00#8] = .error (.badLength 0x02#8 4)
      ∧ decodeFrame [0x06#8, 0x00#8] = .error (.badLength 0x06#8 2)
      ∧ decodeFrame [0x05#8] = .error (.badLength 0x05#8 1)
      ∧ decodeFrame [0xAB#8, 0x00#8] = .error (.badLength 0xAB#8 2) := by decide

/-- Rule R330, codes 0x00 to 0x08. -/
theorem test_decode_commands_low :
    decodeCommand ⟨0x00#5, 7, 8, 9, [1]⟩ = .cmdInit ∧ decodeCommand ⟨0x01#5, 7, 8, 9, [1]⟩ = .cmdRead 7 8
      ∧ decodeCommand ⟨0x02#5, 7, 1, 9, [1]⟩ = .cmdWrite 7 [1] ∧ decodeCommand ⟨0x03#5, 7, 8, 9, [1]⟩ = .cmdReadStatus
      ∧ decodeCommand ⟨0x04#5, 7, 8, 9, [1]⟩ = .cmdWriteStatus 9 ∧ decodeCommand ⟨0x05#5, 7, 8, 9, [1]⟩ = .cmdGetWel
      ∧ decodeCommand ⟨0x06#5, 7, 8, 9, [1]⟩ = .cmdSetWel 9 ∧ decodeCommand ⟨0x07#5, 7, 8, 9, [1]⟩ = .cmdGetWip
      ∧ decodeCommand ⟨0x08#5, 7, 8, 9, [1]⟩ = .cmdGetBp := by decide

/-- Rule R330, codes 0x09 to 0x10, and rule R332. -/
theorem test_decode_commands_high :
    decodeCommand ⟨0x09#5, 7, 8, 9, [1]⟩ = .cmdSetBp 9 ∧ decodeCommand ⟨0x0A#5, 7, 8, 9, [1]⟩ = .cmdGetSrwd
      ∧ decodeCommand ⟨0x0B#5, 7, 8, 9, [1]⟩ = .cmdSetSrwd 9 ∧ decodeCommand ⟨0x0C#5, 7, 8, 9, [1]⟩ = .cmdErasePage 7
      ∧ decodeCommand ⟨0x0D#5, 7, 8, 9, [1]⟩ = .cmdEraseSector 7 ∧ decodeCommand ⟨0x0E#5, 7, 8, 9, [1]⟩ = .cmdEraseChip
      ∧ decodeCommand ⟨0x0F#5, 7, 8, 9, [1]⟩ = .cmdDeepPowerDown ∧ decodeCommand ⟨0x10#5, 7, 8, 9, [1]⟩ = .cmdWake
      ∧ decodeCommand ⟨0x11#5, 7, 8, 9, [1]⟩ = .cmdReserved 0x11#5
      ∧ decodeCommand ⟨0x1F#5, 7, 8, 9, [1]⟩ = .cmdReserved 0x1F#5 := by decide

/-- Rule R800's table of result codes. -/
theorem test_resultNumber :
    [ResultCode.ok, .outOfRange, .pageBoundary, .initialization, .deviceTimeout, .notReady, .illegalCommand].map resultNumber
      = [0#3, 1#3, 2#3, 3#3, 4#3, 5#3, 6#3] := by decide

/-! The encoder. -/

/-- V12, V15, V16, V21. -/
theorem test_encode_bytes :
    encRead Params.default 0x20000#24 0 = [0x03#8, 0x02#8, 0x00#8, 0x00#8] ∧ enc24 0x123456#24 = [0x12#8, 0x34#8, 0x56#8]
      ∧ enc24 0x1FFFF#24 = [0x01#8, 0xFF#8, 0xFF#8]
      ∧ encRdid { Params.default with fillByte := 0xFF#8, rdidDummy := 0xA5#8 } = [0xAB#8, 0xA5#8, 0xA5#8, 0xA5#8, 0xFF#8]
      ∧ encRdsr { Params.default with fillByte := 0xFF#8 } = [0x05#8, 0xFF#8] := by decide

/-- V17, V18, V19: the low 24 bits of the operand, and the device's address. -/
theorem test_encode_erase_address :
    encPe (fieldAddr 0xFFFFFFFF#32) = [0x42#8, 0xFF#8, 0xFF#8, 0xFF#8]
      ∧ page (frameAddr [0x42#8, 0xFF#8, 0xFF#8, 0xFF#8]) = 511
      ∧ encPe (fieldAddr 0x01020304#32) = [0x42#8, 0x02#8, 0x03#8, 0x04#8]
      ∧ page (frameAddr [0x42#8, 0x02#8, 0x03#8, 0x04#8]) = 3
      ∧ encSe (fieldAddr 0x20000#32) = [0xD8#8, 0x02#8, 0x00#8, 0x00#8]
      ∧ sector (frameAddr [0xD8#8, 0x02#8, 0x00#8, 0x00#8]) = 0 := by decide

/-- The opcode table's words: SPI rows, and a code the SPI space does not have. -/
theorem test_table_words :
    decodeTableWord 8 0x03 = some (.spiRead 0#24 0) ∧ decodeTableWord 8 0x02 = some (.spiWrite 0#24 [0x00#8])
      ∧ decodeTableWord 8 0xAB = some .spiRdid ∧ decodeTableWord 8 0x0C = some (.cmdErasePage 0)
      ∧ decodeTableWord 8 0x11 = some (.cmdReserved 0x11#5) ∧ decodeTableWord 8 0x20 = none := by decide

/-- A placed word is what the next step runs: WREN of the SPI space, DEEP_POWER_DOWN turned away before INIT. -/
theorem test_place_words :
    (stepped (State.reset.withFetchWord 8 0x06)).dev.wel = true
      ∧ (stepped (State.reset.withFetchWord 8 0x0F)).rspCode = .notReady := by decide

/-- Rule R340: a line's command and its text; a frame's text. -/
theorem test_assembly :
    asmInstr (.read (-1) 1) = .cmdRead 0xFFFFFFFF#32 1 ∧ asmInstr .identity = .cmdWake
      ∧ frameText [0x42#8, 0x00#8, 0x12#8, 0x34#8] = some "PE 00 12 34"
      ∧ frameText [0x05#8, 0x00#8] = some "RDSR | 00" := by decide

/-! Operands and flags. -/

/-- V22 to V26. -/
theorem test_inRange_array :
    inRange 0 0 = true ∧ inRange 0 0x20000 = true ∧ inRange 0 0x20001 = false ∧ inRange 0x20000 0 = true
      ∧ inRange 0x20000 1 = false := by decide

/-- V30 to V33: no 32-bit wrap. -/
theorem test_inRange_integers :
    inRange (-1) 1 = false ∧ inRange 0x7FFFFFFF 1 = false ∧ inRange 1 0xFFFFFFFF = false
      ∧ inRange (intAddr 0x80000000#32) 0 = false := by decide

/-- V61 to V67. -/
theorem test_protected :
    protectedAt 0x17FFF 1 = false ∧ protectedAt 0x18000 1 = true ∧ protectedAt 0x0FFFF 2 = false
      ∧ protectedAt 0x10000 2 = true ∧ protectedAt 0x07FFF 3 = true ∧ protectedAt 0 3 = true
      ∧ protectedAt 0x1FFFF 1 = true := by decide

/-- V34 to V37, V39c. -/
theorem test_chunks :
    chunks 0 0 = [] ∧ chunks 0xFF 2 = [(0xFF, 1), (0x100, 1)] ∧ chunks 0x1F0 32 = [(0x1F0, 16), (0x200, 16)]
      ∧ chunks 0x1FFFF 1 = [(0x1FFFF, 1)] := by decide

/-- V38. -/
theorem test_chunks_three : chunks 0x10 600 = [(0x10, 240), (0x100, 256), (0x200, 104)] := by decide

/-! The SPI instructions. -/

/-- Rule R236: READ wraps at the top of the array. -/
theorem test_spiRead_wraps :
    ((after (.spiRead 0x1FFFF#24 2) (ready { Device.powerUp with arr := [(0, 0x11#8), (0x1FFFF, 0x22#8)] })).rx.drop 4)
      = [0x22#8, 0x11#8] := by decide

/-- Rule R238: WRITE needs WEL. -/
theorem test_spiWrite_needs_wel :
    (after (.spiWrite 0x1F0#24 [0xAA#8]) (ready (device false true 0 0 false))).dev.pending = some (.write 0x1F0 [0xAA#8])
      ∧ (after (.spiWrite 0x1F0#24 [0xAA#8]) (ready (device false false 0 0 false))).dev.pending = none := by decide

/-- Program P2, step 6: WRITE into a protected sector is ignored and WEL stays. -/
theorem test_spiWrite_protected :
    (after (.spiWrite 0x18000#24 [0xAA#8]) (ready (device false true 1 0 false))).dev = device false true 1 0 false := by
  decide

/-- Rule R242. -/
theorem test_spiWren_spiWrdi :
    (after .spiWren (ready (device false false 0 0 false))).dev.wel = true
      ∧ (after .spiWrdi (ready (device false true 0 0 false))).dev.wel = false := by decide

/-- Rule R244: RDSR answers while busy. -/
theorem test_spiRdsr_busy : rxByte 1 (after .spiRdsr (ready (device true true 3 7 true))) = 0xFF#8 := by decide

/-- Rule R246: WRSR needs WEL; SRWD refuses it only while WP_N is low. -/
theorem test_spiWrsr :
    (after (.spiWrsr 0x8C#8) (ready (device false true 0 0 true))).dev.pending = some (.statusWrite 0x8C#8)
      ∧ (after (.spiWrsr 0x8C#8) (ready (device false false 0 0 false))).dev.pending = none
      ∧ (after (.spiWrsr 0x8C#8) { ready (device false true 0 0 true) with wpN := false }).dev.pending = none := by decide

/-- Rules R252, R254: the page and the sector of the address. -/
theorem test_spiPe_spiSe :
    (after (.spiPe 0x1234#24) (ready (device false true 0 0 false))).dev.pending = some (.pageErase 0x12)
      ∧ (after (.spiSe 0x1ABCD#24) (ready (device false true 0 0 false))).dev.pending = some (.sectorErase 3) := by decide

/-- V71: CE is ignored where BP is not 0. -/
theorem test_spiCe :
    (after .spiCe (ready (device false true 0 0 false))).dev.pending = some .chipErase
      ∧ (after .spiCe (ready (device false true 1 0 false))).dev.pending = none := by decide

/-- Rules R248, R250: DPD, then only RDID is taken. -/
theorem test_spiDpd_spiRdid :
    (after .spiDpd (ready Device.powerUp)).dev.dpd = true
      ∧ (after .spiWren (after .spiDpd (ready Device.powerUp))).dev.wel = false
      ∧ rxByte 4 (after .spiRdid (after .spiDpd (ready Device.powerUp))) = 0x29#8
      ∧ (after .spiRdid (after .spiDpd (ready Device.powerUp))).dev.dpd = false := by decide

/-! DevComplete. -/

/-- Rule R238: the page offset wraps. -/
theorem test_complete_write_wraps :
    let m := Memory.writePage [] 0x100 0xFF [0x01#8, 0x02#8]
    Memory.read m 0x1FF = 0x01#8 ∧ Memory.read m 0x100 = 0x02#8 ∧ Memory.read m 0x200 = 0xFF#8 := by decide

/-- V69: a page erase ends at the page's edges. -/
theorem test_complete_pageErase :
    let m := cycleArray Params.default [(0x11FF, 0x11#8), (0x1200, 0x11#8), (0x12FF, 0x11#8), (0x1300, 0x11#8)] (.pageErase 0x12)
    m = [(0x11FF, 0x11#8), (0x1300, 0x11#8)] := by decide

/-- Rule R246: a status write's end takes BP and SRWD from the byte, keeps bits 6:4, and clears WEL. -/
theorem test_complete_statusWrite :
    statusByte (cycleEffect Params.default (.statusWrite 0x8F#8) { device true true 0 5 false with pending := some (.statusWrite 0x8F#8) })
      = 0xDC#8 := by decide

/-! The commands. -/

/-- V83, V84, P5 step 3. -/
theorem test_cmdInit :
    (after .cmdInit State.reset).st = .ready ∧ (after .cmdInit State.reset).rspByte = 0x29#8
      ∧ (after .cmdInit { ready Device.powerUp with params := { Params.default with devId := 0x00#8 } }).st = .uninit
      ∧ (after .cmdInit { ready Device.powerUp with params := { Params.default with devId := 0x00#8 } }).rspCode
        = .initialization := by decide

/-- P3 step 7: a READ's bytes. -/
theorem test_cmdRead :
    (after (.cmdRead 0x11FF#32 2) (ready { Device.powerUp with arr := [(0x11FF, 0x11#8)] })).rspData = [0x11#8, 0xFF#8] := by
  decide

/-- V80, V79: out of range, and not ready first. -/
theorem test_cmdRead_errors :
    (after (.cmdRead 0xFFFFFFFF#32 1) (ready Device.powerUp)).rspCode = .outOfRange
      ∧ (after (.cmdRead 0xFFFFFFFF#32 1) State.reset).rspCode = .notReady
      ∧ (after (.cmdRead 0xFFFFFFFF#32 1) (ready Device.powerUp)).trace = [] := by decide

/-- V81, V82: the range check comes before the poll; the poll's timeout. -/
theorem test_cmdWrite_errors :
    let s := { ready (device true false 0 0 false) with params := { Params.default with pollLimit := some 1 } }
    (after (.cmdWrite 0x1FFFF#32 [1, 2]) s).rspCode = .outOfRange ∧ (after (.cmdWrite 0#32 [1]) s).rspCode = .deviceTimeout := by
  decide

/-- V39c: the first sub-write's frame after the first poll. -/
theorem test_cmdWrite_first_chunk :
    (after (.cmdWrite 0x1FE#32 [1, 2, 3]) (ready (device false true 0 0 false))).phase
      = .xfer [0x02#8, 0x00#8, 0x01#8, 0xFE#8, 1, 2] .subWrite := by decide

/-- V58. -/
theorem test_cmdReadStatus : (after .cmdReadStatus (ready (device true true 0 0 false))).rspByte = 0x03#8 := by decide

/-- V57: no masking, then the poll. -/
theorem test_cmdWriteStatus :
    (sentFrames (after (.cmdWriteStatus 0xFF#8) (ready (device false true 0 0 false)))) = [[0x01#8, 0xFF#8]]
      ∧ (after (.cmdWriteStatus 0xFF#8) (ready (device false true 0 0 false))).phase = .xfer [0x05#8, 0x00#8] (.poll .done) := by
  decide

/-- V53: status 0x8D. -/
theorem test_getters_8D :
    let s := ready (device true false 3 0 true)
    (after .cmdGetWip s).rspByte = 1 ∧ (after .cmdGetWel s).rspByte = 0 ∧ (after .cmdGetBp s).rspByte = 3
      ∧ (after .cmdGetSrwd s).rspByte = 1 := by decide

/-- V54: status 0x72. -/
theorem test_getters_72 :
    let s := ready (device false true 0 7 false)
    (after .cmdGetWip s).rspByte = 0 ∧ (after .cmdGetWel s).rspByte = 1 ∧ (after .cmdGetBp s).rspByte = 0
      ∧ (after .cmdGetSrwd s).rspByte = 0 := by decide

/-- V43 to V46. -/
theorem test_cmdSetBp_bytes :
    withBp 0x00#8 3#2 = 0x0C#8 ∧ withBp 0xFF#8 0#2 = 0xF3#8 ∧ withBp 0x72#8 1#2 = 0x76#8 ∧ withBp 0x8E#8 2#2 = 0x8A#8 := by
  decide

/-- V45, V48. -/
theorem test_cmdSetBp :
    (after (.cmdSetBp 1) (ready (device false true 0 7 false))).phase = .xfer [0x01#8, 0x76#8] .thenPoll
      ∧ (after (.cmdSetBp 4) (ready Device.powerUp)).rspCode = .illegalCommand
      ∧ (after (.cmdSetBp 4) State.reset).rspCode = .notReady := by decide

/-- V49, V50, V51. -/
theorem test_cmdSetSrwd_bytes :
    withSrwd 0xF3#8 false = 0x73#8 ∧ withSrwd 0x0C#8 true = 0x8C#8 ∧ withSrwd 0x8C#8 true = 0x8C#8 := by decide

/-- V50, V52. -/
theorem test_cmdSetSrwd :
    (after (.cmdSetSrwd 1) (ready (device false false 3 0 false))).phase = .xfer [0x01#8, 0x8C#8] .thenPoll
      ∧ (after (.cmdSetSrwd 2) (ready Device.powerUp)).rspCode = .illegalCommand := by decide

/-- V55. -/
theorem test_cmdSetWel :
    sentFrames (after (.cmdSetWel 1) (ready Device.powerUp)) = [[0x06#8]]
      ∧ sentFrames (after (.cmdSetWel 0) (ready Device.powerUp)) = [[0x04#8]] := by decide

/-- V56. -/
theorem test_cmdSetWel_illegal :
    (after (.cmdSetWel 2) (ready Device.powerUp)).rspCode = .illegalCommand
      ∧ (after (.cmdSetWel 0x81) (ready Device.powerUp)).rspCode = .illegalCommand := by decide

/-- V68, V20. -/
theorem test_cmdErasePage :
    sentFrames (after (.cmdErasePage 0x1234#32) (ready Device.powerUp)) = [[0x42#8, 0x00#8, 0x12#8, 0x34#8]]
      ∧ (after (.cmdErasePage 0x20000#32)
          { ready Device.powerUp with params := { Params.default with eraseRangeCheck := true } }).rspCode = .outOfRange := by
  decide

/-- V70: the sector is protected; WEL stays. -/
theorem test_cmdEraseSector :
    (after (.cmdEraseSector 0x1ABCD#32) (ready (device false true 1 0 false))).dev = device false true 1 0 false
      ∧ sentFrames (after (.cmdEraseSector 0x1ABCD#32) (ready (device false true 1 0 false)))
        = [[0xD8#8, 0x01#8, 0xAB#8, 0xCD#8]] := by decide

/-- V72. -/
theorem test_cmdEraseChip :
    (after .cmdEraseChip (ready (device false true 0 0 false))).dev.pending = some .chipErase := by decide

/-- V73, V74, V75. -/
theorem test_power :
    (after .cmdDeepPowerDown (ready Device.powerUp)).dev.dpd = true
      ∧ (after .cmdWake (ready { Device.powerUp with dpd := true })).rspByte = 0x29#8
      ∧ (after .cmdWake { ready Device.powerUp with params := { Params.default with devId := 0x00#8 } }).rspCode = .ok := by
  decide

/-- V76, V85. -/
theorem test_cmdReserved :
    (after (.cmdReserved 0x15#5) State.reset).rspCode = .illegalCommand
      ∧ (after (.cmdReserved 0x1F#5) (ready Device.powerUp)).rspCode = .illegalCommand := by decide

/-! The poll. -/

/-- V59a, V59b: busy with no limit sleeps; only bit 0 is tested. -/
theorem test_poll_unbounded :
    (stepped (polling (device true true 0 0 false) none 0)).phase = .sleep .done
      ∧ (stepped (polling (device false true 3 7 true) none 0)).rspCode = .ok
      ∧ (stepped (polling (device false true 3 7 true) none 0)).phase = .idle := by decide

/-- V59d, V59f: the limit. -/
theorem test_poll_limit :
    (stepped (polling (device true false 0 0 false) (some 2) 0)).phase = .sleep .done
      ∧ (stepped (polling (device true false 0 0 false) (some 2) 1)).rspCode = .deviceTimeout
      ∧ (stepped (polling (device true false 0 0 false) (some 1) 0)).rspCode = .deviceTimeout := by decide


/-! Witnesses: for each obligation with hypotheses, a state and operands that meet them all; for one with several clauses,
one for each clause. -/

/-- The block ready, out of reset, with the block to move and these offers. -/
def offered (rs : List CommandRegs) : State := { State.reset with sched := [.block], inputs := rs }

/-- The sequencer before the first sub-write of `data` at `a`, the sub-write having `n` bytes. -/
def writing (a n : Nat) (data : List Byte) : State :=
  { ready (device false true 0 0 false) with
    busy := true
    phase := .xfer (encWrite (BitVec.ofNat 24 a) (data.take n)) .subWrite
    seq := { Seq.reset with a := BitVec.ofNat 18 a, rem := BitVec.ofNat 18 data.length, n := BitVec.ofNat 9 n }
    cmd := { CommandRegs.reset with data := data }
    sched := [.block] }

/-- A device with this cycle pending, to move next. -/
def completing (y : Cycle) : State :=
  { ready { device true true 0 0 false with pending := some y } with sched := [.device] }

theorem test_witness_DecodeInvertsEncode :
    wellFormed (.spiWrite 0x1FFFF#24 [0xAB#8]) = true ∧ wellFormed (.cmdReserved 0x1F#5) = true := by decide

theorem test_witness_OnlyElevenOpcodesDecode : decodeFrame [0x05#8, 0x77#8] = .ok .spiRdsr := by decide

theorem test_witness_StepRunsDecodedInstruction :
    (∃ t, takeTurn { offered [] with phase := .decode } = (.block, t) ∧ t.phase = .decode)
      ∧ ∃ t, takeTurn (polling Device.powerUp none 0) = (.block, t) ∧ t.phase = .xfer [0x05#8, 0x00#8] (.poll .done)
        ∧ decodeFrame [0x05#8, 0x00#8] = .ok .spiRdsr :=
  ⟨⟨_, rfl, rfl⟩, _, rfl, rfl, rfl⟩

theorem test_witness_IdleAcceptsFirstOffer :
    (∃ t, takeTurn (offered []) = (.block, t) ∧ t.phase = .idle ∧ t.busy = false ∧ t.inputs = [])
      ∧ ∃ t, takeTurn (offered [⟨0x02#5, 0, 9, 0, [1]⟩]) = (.block, t) ∧ t.phase = .idle ∧ t.busy = false
        ∧ t.inputs = [⟨0x02#5, 0, 9, 0, [1]⟩] :=
  ⟨⟨_, rfl, rfl, rfl, rfl⟩, _, rfl, rfl, rfl, rfl⟩

theorem test_witness_BusyHoldsOffers :
    ∃ t, (polling Device.powerUp none 0).busy = true ∧ step (polling Device.powerUp none 0) = .next t := ⟨_, rfl, rfl⟩

theorem test_witness_StepIssuesAtMostOneTransaction : ∃ t, step (polling Device.powerUp none 0) = .next t := ⟨_, rfl⟩

theorem test_witness_ResetTurnResetsBlockOnly :
    (∃ t, takeTurn { State.reset with sched := [.reset] } = (.reset, t) ∧ State.reset.params.hasControlLines = true)
      ∧ ∃ t, takeTurn { State.reset with sched := [.reset], params := { Params.default with hasControlLines := false } }
        = (.reset, t) :=
  ⟨⟨_, rfl, rfl⟩, _, rfl⟩

theorem test_witness_SpiInstructionIssuesItsFrame : isSpi (.spiWrite 0#24 []) = true := by decide

theorem test_witness_SpiReadStreamsArray : Listens 0x03#8 (ready Device.powerUp).dev := by
  unfold Listens
  decide

theorem test_witness_LatchInstructionsSetAndClearWel :
    Listens 0x06#8 (ready Device.powerUp).dev ∧ Listens 0x04#8 (ready Device.powerUp).dev := by
  unfold Listens
  decide

/-- The clauses of WRITE: accepted; refused for want of a payload, of the latch, and by protection. -/
theorem test_witness_SpiWriteStartsCycle :
    Listens 0x02#8 (device false true 0 0 false) ∧ protectedAt (0x1FFFF % addrLimit) (device false true 0 0 false).bp = false
      ∧ (device false false 0 0 false).wel = false ∧ protectedAt (0x38000 % addrLimit) (device false true 1 0 false).bp = true :=
  ⟨⟨by decide, by decide⟩, by decide, by decide, by decide⟩

theorem test_witness_RdsrAnswersStatus : (device true true 0 0 false).dpd = false ∧ 1 ≤ 1 ∧ 1 ≤ [0x00#8].length := by decide

/-- A status write accepted, and refused by each gate. -/
theorem test_witness_WrsrStartsStatusCycle :
    AcceptsStatusWrite (ready (device false true 0 0 true)) ∧ ¬AcceptsStatusWrite (ready (device false false 0 0 false))
      ∧ ¬AcceptsStatusWrite { ready (device false true 0 0 true) with wpN := false }
      ∧ ¬AcceptsStatusWrite (ready (device true true 0 0 false)) := by
  unfold AcceptsStatusWrite Listens SrwdAllows
  decide

theorem test_witness_RdidWakesAndIdentifies :
    (ready { Device.powerUp with dpd := true }).dev.wip = false := by decide

theorem test_witness_DeepPowerDownIgnoresFrames :
    Listens 0xB9#8 (ready Device.powerUp).dev ∧ (ready { Device.powerUp with dpd := true }).dev.dpd = true
      ∧ (0x05#8 : Byte) ≠ 0xAB#8 := by
  unfold Listens
  decide

/-- An erase accepted at the last address of sector 2, refused in the protected sector 3 and without the latch. -/
theorem test_witness_EraseInstructionsStartCycle :
    AcceptsErase 0x42#8 (0x17FFF % addrLimit) (ready (device false true 1 0 false))
      ∧ ¬AcceptsErase 0x42#8 (0x18000 % addrLimit) (ready (device false true 1 0 false))
      ∧ AcceptsErase 0xD8#8 (0x17FFF % addrLimit) (ready (device false true 1 0 false))
      ∧ ¬AcceptsErase 0xD8#8 (0 % addrLimit) (ready (device false false 0 0 false)) := by
  unfold AcceptsErase Listens
  decide

theorem test_witness_ChipEraseStartsCycle :
    AcceptsChipErase (ready (device false true 0 0 false)) ∧ ¬AcceptsChipErase (ready (device false true 1 0 false)) := by
  unfold AcceptsChipErase Listens
  decide

theorem test_witness_BusyDeviceIgnoresFrames : (device true true 0 0 false).wip = true ∧ (0x06#8 : Byte) ≠ 0x05#8 := by decide

theorem test_witness_UnknownOrShortFramesIgnored :
    0x07#8 ∉ [0x03#8, 0x02#8, 0x06#8, 0x04#8, 0x05#8, 0x01#8, 0x42#8, 0xD8#8, 0xC7#8, 0xAB#8, 0xB9#8]
      ∧ minFrameLength 0xAB#8 = some 5 ∧ [0xAB#8, 0x00#8, 0x00#8, 0x00#8].length < 5 := by decide

theorem test_witness_DevCompleteWritesPage :
    ∃ t, takeTurn (completing (.write 0x1FFFF [1, 2])) = (.device, t) ∧ Memory.wf (completing (.write 0x1FFFF [1, 2])).dev.arr
      ∧ (completing (.write 0x1FFFF [1, 2])).dev.pending = some (.write 0x1FFFF [1, 2]) ∧ 0x1FFFF < addrLimit :=
  ⟨_, rfl, Memory.wf_nil, rfl, by decide⟩

/-- The three cycles, the page and the sector being the last. -/
theorem test_witness_DevCompleteErases :
    (∃ t, takeTurn (completing (.pageErase 511)) = (.device, t)) ∧ (∃ t, takeTurn (completing (.sectorErase 3)) = (.device, t))
      ∧ ∃ t, takeTurn (completing .chipErase) = (.device, t) :=
  ⟨⟨_, rfl⟩, ⟨_, rfl⟩, _, rfl⟩

theorem test_witness_DevCompleteWritesStatus :
    ∃ t, takeTurn (completing (.statusWrite 0x8C#8)) = (.device, t)
      ∧ (completing (.statusWrite 0x8C#8)).dev.pending = some (.statusWrite 0x8C#8) := ⟨_, rfl, rfl⟩

/-- The last address below each boundary and the first above it, and level 3 at address 0. -/
theorem test_witness_ProtectionLevelsAreTopSectors :
    0x17FFF < 0x20000 ∧ protectedAt 0x18000 1 = true ∧ protectedAt 0x10000 2 = true ∧ (1 : BitVec 2).toNat ≤ (2 : BitVec 2).toNat
      ∧ protectedAt 0 3 = true := by decide

theorem test_witness_CommandsNotReadyBeforeInit :
    isSpi (.cmdRead 0xFFFFFFFF#32 1) = false ∧ State.reset.st = .uninit := by decide

theorem test_witness_IllegalCommandsIssueNothing :
    (ready Device.powerUp).st = .ready ∧ 4 ≤ (0x04#8 : Byte).toNat ∧ 2 ≤ (0x02#8 : Byte).toNat := by decide

/-- Each clause at its boundary: a negative address, one byte past the end, the first address past the end. -/
theorem test_witness_OutOfRangeIssuesNothing :
    (ready Device.powerUp).st = .ready ∧ (0xFFFFFFFF#32).toInt < 0 ∧ (0x1FFFF#32).toInt + (2#32).toNat > 0x20000
      ∧ (0x1FFFF#32).toInt + [(1 : Byte), 2].length > 0x20000
      ∧ ({ Params.default with eraseRangeCheck := true }).eraseRangeCheck = true ∧ (0x20000#32).toInt + 1 > 0x20000 := by decide

/-- Each clause of INIT: the identity matches, and does not; no control lines; a cycle running. -/
theorem test_witness_InitChecksIdentity :
    rxByte 4 (after .cmdInit State.reset) = State.reset.params.expectedSignature
      ∧ rxByte 4 (after .cmdInit { State.reset with params := { Params.default with devId := 0x28#8 } }) ≠ 0x29#8
      ∧ ({ Params.default with hasControlLines := false }).hasControlLines = false
      ∧ (ready (device true false 0 0 false)).dev.wip = true := by decide

theorem test_witness_ReadReturnsRequestedBytes :
    (ready Device.powerUp).st = .ready ∧ 0 ≤ (0x20000#32).toInt ∧ (0x20000#32).toInt + (0#32).toNat ≤ 0x20000
      ∧ (0x1FFFF#32).toInt + (1#32).toNat ≤ 0x20000 := by decide

/-- Each clause: an idle reading with and without a payload; a busy one without a limit, with limits 1 and 2. -/
theorem test_witness_WriteBeginsWithPoll :
    0 ≤ (0x1FFFF#32).toInt ∧ (0x1FFFF#32).toInt + [(1 : Byte)].length ≤ 0x20000
      ∧ (0x20000#32).toInt + ([] : List Byte).length ≤ 0x20000
      ∧ wipOf (rxByte 1 (after (.cmdWrite 0x1FFFF#32 [1]) (ready Device.powerUp))) = false
      ∧ wipOf (rxByte 1 (after (.cmdWrite 0x20000#32 []) (ready Device.powerUp))) = false
      ∧ wipOf (rxByte 1 (after (.cmdWrite 0x1FFFF#32 [1]) (ready (device true false 0 0 false)))) = true
      ∧ (after (.cmdWrite 0x1FFFF#32 [1]) (ready Device.powerUp)).phase ≠ .idle
      ∧ (limited 1).params.pollLimit = some 1 ∧ (limited 2).params.pollLimit = some 2
      ∧ (ready Device.powerUp).params.pollLimit = none := by decide

/-- Rules R520, R640: A, OFF, REM and N stand before a busy first reading too, which a limit counts. -/
theorem test_write_busy_registers :
    (after (.cmdWrite 0x1FE#32 [1, 2, 3]) (limited 2)).seq
      = { Seq.reset with a := 0x1FE, rem := 3, n := 2, polls := 1 } := by decide

/-- Rule R640: a limit of 1 ends at the first busy reading. -/
theorem test_write_busy_limit :
    (after (.cmdWrite 0x1FE#32 [1, 2, 3]) (limited 1)).rspCode = .deviceTimeout
      ∧ (after (.cmdWrite 0x1FE#32 [1, 2, 3]) (limited 1)).busy = false := by decide

/-- A sub-write that is the payload's last, and one that is not. -/
theorem test_witness_SubWriteAdvances :
    (∃ t, takeTurn (writing 0x1FFFF 1 [1]) = (.block, t) ∧ Inv (writing 0x1FFFF 1 [1])
        ∧ t.phase = .xfer (chunkFrame t) .subWrite ∧ t.seq.n.toNat = t.seq.rem.toNat)
      ∧ ∃ t, takeTurn (writing 0x1FF 1 [1, 2]) = (.block, t) ∧ Inv (writing 0x1FF 1 [1, 2])
        ∧ t.phase = .xfer (chunkFrame t) .subWrite ∧ t.seq.n.toNat ≠ t.seq.rem.toNat := by
  refine ⟨⟨_, rfl, ⟨⟨Memory.wf_nil, rfl, fun _ h => ?_, fun _ => rfl⟩, by decide, ⟨rfl, ?_⟩, rfl, rfl⟩, rfl, rfl⟩,
    _, rfl, ⟨⟨Memory.wf_nil, rfl, fun _ h => ?_, fun _ => rfl⟩, by decide, ⟨rfl, ?_⟩, rfl, rfl⟩, rfl, by decide⟩
  · cases h
  · unfold WriteRegsOk; decide
  · cases h
  · unfold WriteRegsOk; decide

/-- Each clause: an idle reading; a busy one with no limit, below a limit, and at it. -/
theorem test_witness_PollTestsBitZero :
    (∃ t, takeTurn (polling Device.powerUp none 0) = (.block, t) ∧ t.phase = .xfer (encRdsr t.params) (.poll .done))
      ∧ wipOf (rxByte 1 (stepped (polling Device.powerUp none 0))) = false
      ∧ wipOf (rxByte 1 (stepped (polling (device true false 0 0 false) (some 2) 0))) = true
      ∧ (polling (device true false 0 0 false) (some 2) 0).seq.polls + 1 < 2
      ∧ 2 ≤ (polling (device true false 0 0 false) (some 2) 1).seq.polls + 1 :=
  ⟨⟨_, rfl, rfl⟩, by decide, by decide, by decide, by decide⟩

theorem test_witness_SleepLeadsToNextRdsr :
    ∃ t, takeTurn { ready Device.powerUp with phase := .sleep .done, busy := true } = (.block, t) ∧ t.phase = .sleep .done :=
  ⟨_, rfl, rfl⟩

theorem test_witness_GettersReturnFieldOfByteRead :
    (ready Device.powerUp).st = .ready ∧ ((Instr.cmdGetBp, fun v => (v &&& 0x0C#8) >>> 2) : Instr × (Byte → Byte)) ∈
      [((.cmdReadStatus, fun v => v) : Instr × (Byte → Byte)), (.cmdGetBp, fun v => (v &&& 0x0C#8) >>> 2),
        (.cmdGetSrwd, fun v => (v.extractLsb' 7 1).setWidth 8), (.cmdGetWip, fun v => (v.extractLsb' 0 1).setWidth 8),
        (.cmdGetWel, fun v => (v.extractLsb' 1 1).setWidth 8)] :=
  ⟨rfl, by simp⟩

theorem test_witness_GettersReturnDeviceFields :
    (ready Device.powerUp).st = .ready ∧ (ready Device.powerUp).dev.dpd = false := by decide

theorem test_witness_WriteStatusSendsByteThenPolls :
    (ready (device false true 0 0 false)).st = .ready ∧ AcceptsStatusWrite (ready (device false true 0 0 false)) := by
  unfold AcceptsStatusWrite Listens SrwdAllows
  decide

/-- Both clauses at the largest operand. -/
theorem test_witness_FieldSettersReadModifyWrite :
    (ready Device.powerUp).st = .ready ∧ (3#8 : Byte).toNat < 4 ∧ (1#8 : Byte).toNat < 2 := by decide

theorem test_witness_SetterWritesBackThenPolls :
    ∃ t, takeTurn { ready Device.powerUp with phase := .xfer [0x01#8, 0x8C#8] .thenPoll, busy := true } = (.block, t)
      ∧ t.phase = .xfer [0x01#8, 0x8C#8] .thenPoll := ⟨_, rfl, rfl⟩

/-- A device that listens and one that does not, for the latch and the power commands. -/
theorem test_witness_SetWelIssuesOneLatchInstruction :
    (ready Device.powerUp).st = .ready ∧ Listens 0x06#8 Device.powerUp ∧ ¬Listens 0x06#8 (device true false 0 0 false)
      ∧ ¬Listens 0xB9#8 { Device.powerUp with dpd := true } := by
  unfold Listens
  decide

/-- An address outside the array is sent where nothing checks it; where something does, the last one is in range. -/
theorem test_witness_EraseCommandsSendThenPoll :
    (ready Device.powerUp).st = .ready ∧ (ready Device.powerUp).params.eraseRangeCheck = false
      ∧ 0 ≤ (0x1FFFF#32).toInt ∧ (0x1FFFF#32).toInt + 1 ≤ 0x20000
      ∧ AcceptsErase 0x42#8 ((0xFFFFFFFF#32).toNat % 0x20000) (ready (device false true 0 0 false))
      ∧ ¬AcceptsErase 0xD8#8 ((0xFFFFFFFF#32).toNat % 0x20000) (ready (device false true 1 0 false)) := by
  unfold AcceptsErase Listens
  decide

theorem test_witness_PowerCommandsIssueOneFrame :
    (ready Device.powerUp).st = .ready ∧ (ready Device.powerUp).dev.wip = false
      ∧ (ready (device true false 0 0 false)).dev.wip = true := by decide

/-- A state in the middle of a WRITE, not only reset, meets the invariants' hypotheses and answers a next state. -/
theorem test_witness_StepKeepsInvariant :
    Inv (writing 0x1FF 1 [1, 2]) ∧ TraceOk (writing 0x1FF 1 [1, 2]) ∧ (writing 0x1FF 1 [1, 2]).rspCode ≠ .pageBoundary
      ∧ ∃ t, step (writing 0x1FF 1 [1, 2]) = .next t := by
  obtain ⟨_, _, h, -, -⟩ := test_witness_SubWriteAdvances.2
  exact ⟨h, by simp [TraceOk, writing, ready, State.reset], by decide, _, rfl⟩

theorem test_witness_StepNeverStops : Inv (writing 0x1FF 1 [1, 2]) := test_witness_StepKeepsInvariant.1

theorem test_witness_BlockIssuesOnlyItsFormats :
    Inv (writing 0x1FF 1 [1, 2]) ∧ TraceOk (writing 0x1FF 1 [1, 2]) ∧ ∃ t, step (writing 0x1FF 1 [1, 2]) = .next t :=
  ⟨test_witness_StepKeepsInvariant.1, test_witness_StepKeepsInvariant.2.1, test_witness_StepKeepsInvariant.2.2.2⟩

theorem test_witness_PageBoundaryNeverRaised :
    Inv (writing 0x1FF 1 [1, 2]) ∧ (writing 0x1FF 1 [1, 2]).rspCode ≠ .pageBoundary
      ∧ ∃ t, step (writing 0x1FF 1 [1, 2]) = .next t :=
  ⟨test_witness_StepKeepsInvariant.1, test_witness_StepKeepsInvariant.2.2⟩

theorem test_witness_ParametersAndReservedBitsFixed :
    ∃ t, step { State.reset with busy := true, phase := .decode } = .next t ∧ t.st ≠ State.reset.st :=
  ⟨_, rfl, by decide⟩

theorem test_witness_OnlyDevCompleteChangesArray :
    ∃ t, step (completing (.statusWrite 0x8C#8)) = .next t ∧ t.dev.bp ≠ (completing (.statusWrite 0x8C#8)).dev.bp :=
  ⟨_, rfl, by decide⟩

theorem test_witness_ChunksPartitionPayload :
    0x1FFFE + [(1 : Byte), 2].length ≤ 0x20000 ∧ 0 + 1 < (chunks 0xFF 2).length ∧ (0xFF, 1) ∈ chunks 0xFF 2 := by decide

theorem test_witness_WriteIssuesChunksInOrder :
    (ready Device.powerUp).st = .ready ∧ 0 ≤ (0x1FE#32).toInt ∧ (0x1FE#32).toInt + [(1 : Byte), 2, 3].length ≤ 0x20000
      ∧ QuietDevice false (ready Device.powerUp).dev ∧ (ready Device.powerUp).sched = [] := by
  unfold QuietDevice
  decide

theorem test_witness_WriteThenReadReturnsPayload :
    let s : State := { ready (device false true 0 0 false) with
      params := { Params.default with devWelAutoclear := false }
      sched := scheduleS0 (chunks 0x1FE 3).length }
    s.st = .ready ∧ (0x1FE#32).toInt + [(1 : Byte), 2, 3].length ≤ 0x20000 ∧ QuietDevice true s.dev ∧ s.dev.bp = 0
      ∧ Memory.wf s.dev.arr ∧ s.params.devWelAutoclear = false
      ∧ s.sched = scheduleS0 (chunks (0x1FE#32).toNat [(1 : Byte), 2, 3].length).length :=
  ⟨rfl, by decide, ⟨rfl, rfl, rfl, rfl⟩, rfl, Memory.wf_nil, rfl, rfl⟩

theorem test_witness_OnlyFirstChunkLandsWithAutoclear :
    let s : State := { ready (device false true 0 0 false) with sched := scheduleS0 1 }
    s.st = .ready ∧ (0x1FE#32).toInt + [(1 : Byte), 2, 3].length ≤ 0x20000 ∧ QuietDevice true s.dev ∧ s.dev.bp = 0
      ∧ Memory.wf s.dev.arr ∧ s.params.devWelAutoclear = true ∧ s.sched = scheduleS0 1 :=
  ⟨rfl, by decide, ⟨rfl, rfl, rfl, rfl⟩, rfl, Memory.wf_nil, rfl, rfl⟩

/-- A READ before INIT ends NOT_READY, where the reset state holds OK. -/
theorem test_witness_ResultCodeWrittenOnlyAtEnd :
    ∃ t, step { State.reset with busy := true, phase := .decode, cmd := { CommandRegs.reset with op := 0x01 }, sched := [.block] }
        = .next t ∧ t.rspCode ≠ State.reset.rspCode :=
  ⟨_, rfl, by decide⟩

end Sys2Proof.Tests
end

section
/-! PROOFS. 20_memory.md Part 2, the frames without an address: WREN, WRDI, RDSR, RDID and DPD of any length, where the
device listens; then the four statements about them. -/

namespace Sys2Proof.Machine

/-! When the device listens (rule R234). -/

/-- Out of deep power-down RDSR is taken, a cycle running or not. -/
theorem listens_rdsr_of_awake {d : Device} (h : d.dpd = false) : Listens 0x05#8 d :=
  ⟨fun hd => absurd hd (by simp [h]), fun _ => rfl⟩

/-- With no cycle running RDID is taken, in deep power-down or not. -/
theorem listens_rdid_of_idle {d : Device} (h : d.wip = false) : Listens 0xAB#8 d :=
  ⟨fun _ => rfl, fun hw => absurd hw (by simp [h])⟩

/-- In deep power-down only RDID is taken. -/
theorem not_listens_of_dpd {op : Byte} {d : Device} (hd : d.dpd = true) (hop : op ≠ 0xAB#8) : ¬Listens op d :=
  fun hl => hop (hl.1 hd)

/-! The frames, with any bytes after those their format needs. -/

theorem exchange_wren_dev {s : State} (rest : List Byte) (h : Listens 0x06#8 s.dev) :
    (exchange (0x06#8 :: rest) s).dev = { s.dev with wel := true } := by
  rw [exchange_of_listens h]; rfl

theorem exchange_wrdi_dev {s : State} (rest : List Byte) (h : Listens 0x04#8 s.dev) :
    (exchange (0x04#8 :: rest) s).dev = { s.dev with wel := false } := by
  rw [exchange_of_listens h]; rfl

theorem exchange_dpd_dev {s : State} (rest : List Byte) (h : Listens 0xB9#8 s.dev) :
    (exchange (0xB9#8 :: rest) s).dev = { s.dev with dpd := true } := by
  rw [exchange_of_listens h]; rfl

/-- An RDSR frame of any length changes nothing. -/
theorem exchange_rdsr_rest_dev {s : State} (rest : List Byte) (h : s.dev.dpd = false) :
    (exchange (0x05#8 :: rest) s).dev = s.dev := by
  rw [exchange_of_listens (listens_rdsr_of_awake h)]; rfl

/-- Every byte of an RDSR frame after the first receives the status byte. -/
theorem exchange_rdsr_rest_byte {s : State} {rest : List Byte} {i : Nat} (h : s.dev.dpd = false) (hi : 1 ≤ i)
    (hlen : i ≤ rest.length) : (exchange (0x05#8 :: rest) s).rx.getD i 0 = statusByte s.dev := by
  rw [exchange_of_listens (listens_rdsr_of_awake h)]
  change (reply s.fresh (rest.length + 1) fun i => if 1 ≤ i then some (statusByte s.dev) else none).getD i 0 = _
  rw [reply_getD (Nat.lt_succ_of_le hlen), if_pos hi, Option.getD_some]

/-- A frame of five bytes or more is long enough for RDID (rule R248). -/
theorem answerRdid_of_length {p : Params} {c : Nat} {d : Device} {tx : List Byte} (h : 5 ≤ tx.length) :
    answerRdid p c d tx =
      ({ d with dpd := false }, reply c tx.length fun i => if i = 4 then some p.devId else none) :=
  if_pos h

/-- An RDID frame of five bytes or more receives the identity in byte 4 and ends deep power-down. -/
theorem exchange_rdid {s : State} {rest : List Byte} (h : s.dev.wip = false) (hlen : 4 ≤ rest.length) :
    (exchange (0xAB#8 :: rest) s).rx.getD 4 0 = s.params.devId
      ∧ (exchange (0xAB#8 :: rest) s).dev = { s.dev with dpd := false } := by
  have hans : answerByOpcode s.params (wpInput s) s.fresh s.dev 0xAB#8 (0xAB#8 :: rest) =
      answerRdid s.params s.fresh s.dev (0xAB#8 :: rest) := rfl
  have hlen' : 4 < (0xAB#8 :: rest).length := Nat.lt_succ_of_le hlen
  rw [exchange_of_listens (listens_rdid_of_idle h), hans, answerRdid_of_length hlen']
  exact ⟨reply_getD hlen', rfl⟩

/-! The statements. -/

/-- Settles O15: `reply` names the status byte at every index from 1 on, and out of deep power-down the device listens. -/
theorem rdsrAnswersStatus : Obligations.RdsrAnswersStatus :=
  ⟨fun _ h => ⟨_, rfl, exchange_issues _ _, exchange_rdsr_rest_dev _ h,
      exchange_rdsr_rest_byte h (Nat.le_refl 1) (Nat.le_refl 1)⟩,
    fun _ rest _ h hi hlen => ⟨exchange_rdsr_rest_byte h hi hlen, exchange_rdsr_rest_dev rest h⟩⟩

/-- Settles O17: with no cycle running the device listens to RDID, and both frames have the five bytes it needs. -/
theorem rdidWakesAndIdentifies : Obligations.RdidWakesAndIdentifies :=
  ⟨fun _ h => ⟨_, rfl, exchange_issues _ _, exchange_rdid h (Nat.le_refl 4)⟩,
    fun _ _ _ _ _ rest h => exchange_rdid h (Nat.le_add_left 4 rest.length)⟩

/-- Settles O18: in deep power-down the device listens to no frame but RDID. -/
theorem deepPowerDownIgnoresFrames : Obligations.DeepPowerDownIgnoresFrames :=
  ⟨fun _ h => ⟨_, rfl, exchange_issues _ _, exchange_dpd_dev [] h⟩,
    fun _ _ _ hd hop => exchange_of_not_listens (not_listens_of_dpd hd hop)⟩

/-- Settles O14: the one-byte frames of the two instructions are the shortest case of the longer ones. -/
theorem latchInstructionsSetAndClearWel : Obligations.LatchInstructionsSetAndClearWel :=
  ⟨fun _ h => ⟨_, rfl, exchange_issues _ _, exchange_wren_dev [] h⟩,
    fun _ h => ⟨_, rfl, exchange_issues _ _, exchange_wrdi_dev [] h⟩,
    fun _ rest h => exchange_wren_dev rest h, fun _ rest h => exchange_wrdi_dev rest h⟩

end Sys2Proof.Machine
end

section
/-! PROOFS. 30_encoding.md section 4: what the command decoder answers for each code, and that its answer encodes to the
same code. -/

namespace Sys2Proof

/-- Only an SPI instruction has a frame, so one whose words are a command is none. -/
theorem isSpi_eq_false_of_encode_command {p : Params} {i : Instr} {q : CommandRegs} (h : encode p i = .command q) :
    isSpi i = false := by
  by_contra hi
  have hframe := Machine.encode_of_isSpi p (eq_true_of_ne_false hi)
  simp [h] at hframe

/-- A decoded command encodes to the code it was decoded from, whatever the operand registers hold: each of the
seventeen arms has its own code, and a reserved command carries it. -/
theorem encode_decodeCommand_op (p : Params) (r : CommandRegs) :
    ∃ q, encode p (decodeCommand r) = .command q ∧ q.op = r.op := by
  unfold decodeCommand
  split
  case h_18 => exact ⟨_, rfl, rfl⟩
  all_goals
    rename_i hcode
    exact ⟨_, rfl, BitVec.eq_of_toNat_eq hcode.symm⟩

/-- A code beyond the seventeen of rule R330 is reserved (rule R332). -/
theorem decodeCommand_of_code_ge {r : CommandRegs} (h : 0x11 ≤ r.op.toNat) : decodeCommand r = .cmdReserved r.op := by
  unfold decodeCommand
  split
  case h_18 => rfl
  all_goals omega

/-- The catch-all arm is the only one that answers a reserved command, and none of the seventeen codes reaches it. -/
theorem code_ge_of_decodeCommand_reserved {r : CommandRegs} {op : BitVec 5} (h : decodeCommand r = .cmdReserved op) :
    0x11 ≤ r.op.toNat := by
  unfold decodeCommand at h
  split at h
  case h_18 =>
    simp only [imp_false] at *
    omega
  all_goals cases h

/-- Settles O4: a decoded command's words are a command of the same code, so it is none of the SPI space. -/
theorem commandDecodingIsTotal : Obligations.CommandDecodingIsTotal := by
  intro p r
  obtain ⟨q, hq, hop⟩ := encode_decodeCommand_op p r
  exact ⟨isSpi_eq_false_of_encode_command hq, ⟨q, hq, hop⟩,
    fun ⟨_, h⟩ => code_ge_of_decodeCommand_reserved h, fun h => ⟨_, decodeCommand_of_code_ge h⟩⟩

end Sys2Proof
end

section
/-! PROOFS. 42_read_write.md, rule R500: the range predicate, whose sum is one of integers and so cannot wrap. -/

namespace Sys2Proof.Machine

/-- The two bounds a range has to keep: it starts at 0 or above and ends at the array's end or below. -/
theorem inRange_eq_true_iff (a : Int) (n : Nat) : inRange a n = true ↔ 0 ≤ a ∧ a + n ≤ 0x20000 := by
  simp [inRange]

/-- Settles O26: rule R500 states the two bounds by what breaks them; its four examples are evaluated. -/
theorem rangePredicateOnIntegers : Obligations.RangePredicateOnIntegers := by
  refine ⟨fun a n => ?_, by decide, by decide, by decide, by decide⟩
  rw [inRange_eq_true_iff, not_or, not_lt, gt_iff_lt, not_lt]

end Sys2Proof.Machine
end

section
/-! PROOFS. 60_exceptions.md section 1: a command that raises an error ends with that code and touches neither the port
nor the device; the causes of NOT_READY (rule R806) and of ILLEGAL_COMMAND (rule R807). -/

namespace Sys2Proof.Machine

/-- An error raised before any transaction (rules R13, R812): the code is in RSP_CODE, nothing went out on the port. -/
theorem raise_ends_quietly (c : ResultCode) (s : State) :
    Ends c (raise c s) ∧ IssuesNothing s (raise c s) ∧ KeepsRest s (raise c s) :=
  ⟨⟨raise_rspCode c s, raise_busy c s, raise_phase c s⟩, ⟨raise_trace c s, raise_rx c s, raise_dev c s⟩,
    ⟨raise_params c s, raise_inputs c s, raise_sched c s⟩, ⟨raise_cmd c s, raise_holdN c s, raise_wpN c s⟩,
    raise_st c s, fun _ => rfl, rfl, rfl, rfl⟩

/-- An instruction that does nothing but raise an error ends quietly. -/
theorem exec_ends_quietly {i : Instr} {c : ResultCode} {s : State} (h : exec i s = .next (raise c s)) :
    ∃ t, exec i s = .next t ∧ Ends c t ∧ IssuesNothing s t ∧ KeepsRest s t :=
  ⟨_, h, raise_ends_quietly c s⟩

/-! NOT_READY (rule R806). -/

/-- The meaning of every command but INIT and the reserved codes is one `whenReady`, outside its operand checks. -/
theorem exec_of_uninit {i : Instr} {s : State} (hcmd : isSpi i = false) (hinit : i ≠ .cmdInit)
    (hres : ∀ op, i ≠ .cmdReserved op) (hst : s.st = .uninit) : exec i s = .next (raise .notReady s) := by
  cases i
  case cmdInit => exact absurd rfl hinit
  case cmdReserved op => exact absurd rfl (hres op)
  case spiRead | spiWrite | spiWren | spiWrdi | spiRdsr | spiWrsr | spiPe | spiSe | spiCe | spiRdid | spiDpd => cases hcmd
  all_goals exact congrArg Host.Outcome.next (whenReady_uninit hst)

/-- Settles O28: `whenReady` raises NOT_READY before it looks at the command. -/
theorem commandsNotReadyBeforeInit : Obligations.CommandsNotReadyBeforeInit :=
  fun _ _ hcmd hinit hres hst => exec_ends_quietly (exec_of_uninit hcmd hinit hres hst)

/-! ILLEGAL_COMMAND (rule R807): the operands that leave an unused bit of CMD_ARG set (rule R332). -/

/-- The bits of an operand from `i` up are all zero only below `2 ^ i`. -/
theorem toNat_lt_of_upper_bits_zero {arg : Byte} {i n : Nat} (hw : 8 = i + n) (h : arg.extractLsb' i n = 0) :
    arg.toNat < 2 ^ i := by
  have hdiv : arg.toNat / 2 ^ i % 2 ^ n = 0 := by
    rw [← Nat.shiftRight_eq_div_pow, ← BitVec.extractLsb'_toNat, h]
    exact BitVec.toNat_zero
  have hlt : arg.toNat / 2 ^ i < 2 ^ n := Nat.div_lt_of_lt_mul (by rw [← pow_add, ← hw]; exact arg.isLt)
  rw [Nat.mod_eq_of_lt hlt] at hdiv
  exact Nat.lt_of_div_eq_zero (Nat.two_pow_pos i) hdiv

theorem levelArg_eq_none {arg : Byte} (h : 4 ≤ arg.toNat) : levelArg arg = none :=
  if_neg fun h0 => absurd (toNat_lt_of_upper_bits_zero (i := 2) rfl h0) (Nat.not_lt.mpr h)

theorem boolArg_eq_none {arg : Byte} (h : 2 ≤ arg.toNat) : boolArg arg = none :=
  if_neg fun h0 => absurd (toNat_lt_of_upper_bits_zero (i := 1) rfl h0) (Nat.not_lt.mpr h)

section
variable {s : State} {arg : Byte} (hst : s.st = .ready)
include hst

theorem exec_cmdSetBp_of_no_level (h : levelArg arg = none) :
    exec (.cmdSetBp arg) s = .next (raise .illegalCommand s) := by
  simp only [exec, execCmdSetBp, whenReady_ready hst, h]

theorem exec_cmdSetSrwd_of_no_bool (h : boolArg arg = none) :
    exec (.cmdSetSrwd arg) s = .next (raise .illegalCommand s) := by
  simp only [exec, execCmdSetSrwd, whenReady_ready hst, h]

theorem exec_cmdSetWel_of_no_bool (h : boolArg arg = none) :
    exec (.cmdSetWel arg) s = .next (raise .illegalCommand s) := by
  simp only [exec, execCmdSetWel, whenReady_ready hst, h]

end

/-- Settles O29: a reserved code only raises; the three setters raise where their operand is no level or no Bool. -/
theorem illegalCommandsIssueNothing : Obligations.IllegalCommandsIssueNothing :=
  ⟨fun _ _ => exec_ends_quietly rfl,
    fun _ _ hst harg => exec_ends_quietly (exec_cmdSetBp_of_no_level hst (levelArg_eq_none harg)),
    fun _ _ hst harg =>
      ⟨exec_ends_quietly (exec_cmdSetSrwd_of_no_bool hst (boolArg_eq_none harg)),
        exec_ends_quietly (exec_cmdSetWel_of_no_bool hst (boolArg_eq_none harg))⟩⟩

end Sys2Proof.Machine
end

section
/-! PROOFS. 30_encoding.md and 40_encoder.md: the address field, and decoding as the inverse of encoding on well-formed
instructions. -/

namespace Sys2Proof

/-! The address field, rule R310. -/

/-- The bytes of an address as quotients: each byte of the field is the address shifted down. -/
theorem enc24_eq_ofNat (a : Addr24) :
    enc24 a = [BitVec.ofNat 8 (a.toNat / 65536), BitVec.ofNat 8 (a.toNat / 256), BitVec.ofNat 8 a.toNat] := by
  simp [enc24, BitVec.extractLsb', Nat.shiftRight_eq_div_pow]

/-- Three bytes read as an address are written back as the same bytes. -/
theorem enc24_dec24 (b2 b1 b0 : Byte) : enc24 (dec24 b2 b1 b0) = [b2, b1, b0] := by
  have h1 := b1.isLt
  have h0 := b0.isLt
  rw [enc24_eq_ofNat, dec24_toNat]
  simp only [List.cons.injEq, and_true]
  refine ⟨?_, ?_, ?_⟩ <;>
  · apply BitVec.eq_of_toNat_eq
    rw [BitVec.toNat_ofNat]
    omega

/-- Settles O3: the field's bytes are quotients of the address, and `dec24` is its inverse, read as rule R310 has it. -/
theorem addressFieldIsBigEndian : Obligations.AddressFieldIsBigEndian :=
  fun a => ⟨enc24_eq_ofNat a, fun b2 b1 b0 => ⟨enc24_dec24 b2 b1 b0, dec24_toNat b2 b1 b0⟩⟩

/-! Decoding and encoding. -/

/-- Settles O1: each SPI format is read back by its own decoder, and each command's code selects its own arm. -/
theorem decodeInvertsEncode : Obligations.DecodeInvertsEncode := by
  intro p i h
  cases i
  case spiRead addr n => exact decodeFrame_encRead p addr n
  case spiWrite addr data => exact decodeFrame_encWrite addr data (by simpa [wellFormed] using h)
  case spiRdsr => exact decodeFrame_encRdsr p
  case spiWrsr v => exact decodeFrame_encWrsr v
  case spiPe addr => exact decodeFrame_encPe addr
  case spiSe addr => exact decodeFrame_encSe addr
  case spiRdid => exact decodeFrame_encRdid p
  case cmdReserved op =>
    exact congrArg Except.ok (decodeCommand_of_code_ge (by simpa [wellFormed, commandRegs] using h))
  all_goals rfl

/-- A decoded frame's operands are those a frame can carry. -/
theorem wellFormed_of_decodeFrame {tx : List Byte} {i : Instr} (h : decodeFrame tx = .ok i) : wellFormed i = true := by
  rcases decodeFrame_ok h with ⟨_, _, _, _, -, rfl⟩ | ⟨_, _, _, data, -, rfl, h1, h256⟩ | ⟨-, rfl⟩ | ⟨-, rfl⟩
    | ⟨_, -, rfl⟩ | ⟨_, -, rfl⟩ | ⟨_, _, _, -, rfl⟩ | ⟨_, _, _, -, rfl⟩ | ⟨-, rfl⟩ | ⟨_, _, _, _, -, rfl⟩ | ⟨-, rfl⟩
  case inr.inl => exact Bool.and_eq_true_iff.mpr ⟨decide_eq_true h1, decide_eq_true h256⟩
  all_goals rfl

/-- A frame that decodes begins with one of the eleven opcodes of rule R300. -/
theorem opcode_mem_of_decodeFrame {op : Byte} {rest : List Byte} {i : Instr} (h : decodeFrame (op :: rest) = .ok i) :
    op ∈ [0x03#8, 0x02#8, 0x06#8, 0x04#8, 0x05#8, 0x01#8, 0x42#8, 0xD8#8, 0xC7#8, 0xAB#8, 0xB9#8] := by
  rcases decodeFrame_ok h with ⟨_, _, _, _, htx, -⟩ | ⟨_, _, _, _, htx, -, -⟩ | ⟨htx, -⟩ | ⟨htx, -⟩ | ⟨_, htx, -⟩
    | ⟨_, htx, -⟩ | ⟨_, _, _, htx, -⟩ | ⟨_, _, _, htx, -⟩ | ⟨htx, -⟩ | ⟨_, _, _, _, htx, -⟩ | ⟨htx, -⟩
  all_goals
    obtain ⟨rfl, -⟩ := List.cons_eq_cons.mp htx
    decide

/-- The instruction a frame decodes to has a frame of the same opcode and length: fill and dummy bytes may differ. -/
theorem encode_of_decodeFrame (p : Params) {op : Byte} {rest : List Byte} {i : Instr}
    (h : decodeFrame (op :: rest) = .ok i) :
    ∃ rest', encode p i = .frame (op :: rest') ∧ rest'.length = rest.length := by
  rcases decodeFrame_ok h with ⟨_, _, _, fill, htx, rfl⟩ | ⟨_, _, _, data, htx, rfl, -⟩ | ⟨htx, rfl⟩ | ⟨htx, rfl⟩
    | ⟨_, htx, rfl⟩ | ⟨_, htx, rfl⟩ | ⟨_, _, _, htx, rfl⟩ | ⟨_, _, _, htx, rfl⟩ | ⟨htx, rfl⟩ | ⟨_, _, _, _, htx, rfl⟩
    | ⟨htx, rfl⟩
  all_goals obtain ⟨rfl, rfl⟩ := List.cons_eq_cons.mp htx
  case inl => exact ⟨_, rfl, by simp; omega⟩
  case inr.inl => exact ⟨_, rfl, by simp; omega⟩
  all_goals exact ⟨_, rfl, rfl⟩

/-- Settles O5: `decodeFrame_ok` lists the frames that decode. -/
theorem onlyElevenOpcodesDecode : Obligations.OnlyElevenOpcodesDecode :=
  fun p _ _ _ h => ⟨opcode_mem_of_decodeFrame h, Machine.isSpi_of_decodeFrame h, encode_of_decodeFrame p h⟩

/-- Settles O2: each word is evaluated. -/
theorem specWordsDecode : Obligations.SpecWordsDecode := by
  unfold Obligations.SpecWordsDecode
  decide

end Sys2Proof
end

section
/-! PROOFS. The step by whose turn it is and where PHASE stands (10_state.md sections 2 and 3, 70_reset_and_hazards.md
section 1), and what every step keeps. -/

namespace Sys2Proof.Machine

/-! One rule per move. -/

theorem step_reset {s t : State} (h : takeTurn s = (.reset, t)) : step s = .next (blockReset t) := by
  simp [step, nextMove, h]

theorem step_idle {s t : State} (h : takeTurn s = (.block, t)) (hp : t.phase = .idle) : step s = .next (accept t) := by
  simp [step, nextMove, h, blockMove, hp]

theorem step_sleep {s t : State} {e : PollEnd} (h : takeTurn s = (.block, t)) (hp : t.phase = .sleep e) :
    step s = .next (pollAgain e t) := by
  simp [step, nextMove, h, blockMove, hp]

theorem accept_of_busy {s : State} (h : s.busy = true) : accept s = s := by
  simp [accept, h]

theorem accept_of_no_offer {s : State} (h : s.inputs = []) : accept s = s := by
  cases hb : s.busy <;> simp [accept, h, hb]

theorem accept_of_offer {s : State} {r : CommandRegs} {rest : List CommandRegs} (hb : s.busy = false)
    (h : s.inputs = r :: rest) :
    accept s = { s with cmd := sampled r, inputs := rest, busy := true, phase := .decode } := by
  simp [accept, h, hb]

/-- Sampling an offer changes CMD_LEN of a WRITE only (rule R104). -/
theorem sampled_eq (r : CommandRegs) :
    sampled r = { r with len := if r.op = 0x02#5 then BitVec.ofNat 32 r.data.length else r.len } := by
  unfold sampled
  split <;> rfl

/-! Fields after an acceptance and after going on from a frame. -/

@[simp] theorem accept_params (s : State) : (accept s).params = s.params := by unfold accept; split <;> rfl
@[simp] theorem accept_dev (s : State) : (accept s).dev = s.dev := by unfold accept; split <;> rfl
@[simp] theorem accept_trace (s : State) : (accept s).trace = s.trace := by unfold accept; split <;> rfl
@[simp] theorem accept_st (s : State) : (accept s).st = s.st := by unfold accept; split <;> rfl
@[simp] theorem accept_rspCode (s : State) : (accept s).rspCode = s.rspCode := by unfold accept; split <;> rfl

@[simp] theorem resume_params (k : Cont) (s : State) : (resume k s).params = s.params := by
  obtain ⟨h, -⟩ := resume_keeps k s; exact h
@[simp] theorem resume_st (k : Cont) (s : State) : (resume k s).st = s.st := by
  obtain ⟨-, h, -⟩ := resume_keeps k s; exact h
@[simp] theorem resume_cmd (k : Cont) (s : State) : (resume k s).cmd = s.cmd := by
  obtain ⟨-, -, h, -⟩ := resume_keeps k s; exact h
@[simp] theorem resume_holdN (k : Cont) (s : State) : (resume k s).holdN = s.holdN := by
  obtain ⟨-, -, -, h, -⟩ := resume_keeps k s; exact h
@[simp] theorem resume_wpN (k : Cont) (s : State) : (resume k s).wpN = s.wpN := by
  obtain ⟨-, -, -, -, h, -⟩ := resume_keeps k s; exact h
@[simp] theorem resume_dev (k : Cont) (s : State) : (resume k s).dev = s.dev := by
  obtain ⟨-, -, -, -, -, h, -⟩ := resume_keeps k s; exact h
@[simp] theorem resume_rx (k : Cont) (s : State) : (resume k s).rx = s.rx := by
  obtain ⟨-, -, -, -, -, -, h, -⟩ := resume_keeps k s; exact h
@[simp] theorem resume_trace (k : Cont) (s : State) : (resume k s).trace = s.trace := by
  obtain ⟨-, -, -, -, -, -, -, h, -⟩ := resume_keeps k s; exact h
@[simp] theorem resume_inputs (k : Cont) (s : State) : (resume k s).inputs = s.inputs := by
  obtain ⟨-, -, -, -, -, -, -, -, h, -⟩ := resume_keeps k s; exact h
@[simp] theorem resume_sched (k : Cont) (s : State) : (resume k s).sched = s.sched := by
  obtain ⟨-, -, -, -, -, -, -, -, -, h⟩ := resume_keeps k s; exact h

/-! The statements about single turns. -/

/-- Settles O6: `step_command`; and at a frame, `step_frame` with the transaction `exec_spi` gives the instruction. -/
theorem stepRunsDecodedInstruction : Obligations.StepRunsDecodedInstruction := by
  intro s t h
  refine ⟨step_command h, fun tx k i hp hd => ?_⟩
  rw [step_frame h hp hd, exec_spi (isSpi_of_decodeFrame hd) rfl (encode_of_isSpi _ (isSpi_of_decodeFrame hd))]

/-- Settles O7: the step is `accept`, which takes the first offer there is. -/
theorem idleAcceptsFirstOffer : Obligations.IdleAcceptsFirstOffer := by
  intro s t h hp hb
  rw [step_idle h hp]
  refine ⟨fun hin => by rw [accept_of_no_offer hin], fun r rest hin => ⟨_, rfl, ?_⟩⟩
  rw [accept_of_offer hb hin, sampled_eq]
  exact ⟨rfl, rfl, rfl, rfl, rfl, rfl, rfl, rfl, rfl, rfl, rfl, ⟨rfl, rfl⟩, ⟨rfl, rfl, rfl⟩, rfl, rfl, rfl, rfl⟩

/-- Settles O10: the step is `blockReset`, of a state that differs in the environment's choice only. -/
theorem resetTurnResetsBlockOnly : Obligations.ResetTurnResetsBlockOnly := by
  intro s t h
  refine ⟨_, step_reset h, ?_⟩
  obtain ⟨ts, n, rfl⟩ := takeTurn_eq h
  refine ⟨rfl, rfl, rfl, rfl, fun hc => ?_, fun hc => ?_, ⟨rfl, rfl, rfl⟩, rfl, rfl⟩
  · exact ⟨if_pos hc, if_pos hc⟩
  · simp [blockReset, hc]

/-- Settles O36: the step is `pollAgain`, which stands before the next RDSR. -/
theorem sleepLeadsToNextRdsr : Obligations.SleepLeadsToNextRdsr := by
  intro s t e h hp
  refine ⟨_, step_sleep h hp, ?_⟩
  obtain ⟨ts, n, rfl⟩ := takeTurn_eq h
  exact ⟨⟨rfl, rfl⟩, ⟨rfl, rfl, rfl⟩, rfl, ⟨rfl, rfl, rfl⟩, rfl, rfl, rfl, rfl⟩

/-! What every step keeps. -/

/-- What the block's turn can do from `u`, the cases of `step_cases`: accept, run a command, sleep, issue a frame. -/
def BlockStep (u t : State) : Prop :=
  (u.phase = .idle ∧ t = accept u)
    ∨ (u.phase = .decode ∧ exec (decodeCommand u.cmd) u = .next t)
    ∨ (∃ e, u.phase = .sleep e ∧ t = pollAgain e u)
    ∨ (∃ tx k i, u.phase = .xfer tx k ∧ decodeFrame tx = .ok i ∧ t = resume k (exchange (spiFrame u.params i) u))
    ∨ ∃ tx k e, u.phase = .xfer tx k ∧ decodeFrame tx = .error e ∧ t = resume k (exchange tx u)

/-- `step_cases` by the turn taken, which uses up the environment's choice and the free counter only. -/
theorem step_turns {s t : State} (h : step s = .next t) :
    ∃ ts n,
      ((takeTurn s).1 = .reset ∧ t = blockReset { s with sched := ts, fresh := n })
        ∨ ((takeTurn s).1 = .device ∧ ∃ y, s.dev.pending = some y ∧ cycleInArray y = true
            ∧ t = { s with sched := ts, fresh := n, dev := cycleEffect s.params y s.dev })
        ∨ ((takeTurn s).1 = .block ∧ BlockStep { s with sched := ts, fresh := n } t) := by
  rcases step_cases h with ⟨u, hu, ht⟩ | ⟨u, y, hu, hy, hin, ht⟩ | ⟨u, hu, ht⟩ <;>
    obtain ⟨ts, n, rfl⟩ := takeTurn_eq hu
  · exact ⟨ts, n, .inl ⟨by rw [hu], ht⟩⟩
  · exact ⟨ts, n, .inr (.inl ⟨by rw [hu], y, hy, hin, ht⟩)⟩
  · exact ⟨ts, n, .inr (.inr ⟨by rw [hu], ht⟩)⟩

/-- The block accepts an offer, or its turn is mild: whatever instruction or frame it runs, the parameters, the offers,
the array and the protection stay, and the trace grows by at most one transaction. -/
theorem blockStep_mild {u t : State} (h : BlockStep u t) : t = accept u ∨ Mild u t := by
  rcases h with ⟨-, hacc⟩ | ⟨-, hx⟩ | ⟨e, -, rfl⟩ | ⟨tx, k, i, -, -, rfl⟩ | ⟨tx, k, e, -, -, rfl⟩
  · exact .inl hacc
  · obtain ⟨w, hw, hmild⟩ := exec_mild (decodeCommand u.cmd) u
    rw [hx] at hw
    cases hw
    exact .inr hmild
  · exact .inr ⟨rfl, rfl, rfl, rfl, rfl, rfl, rfl, .inl rfl⟩
  · exact .inr (mild_resume k (mild_exchange _ u))
  · exact .inr (mild_resume k (mild_exchange _ u))

/-- ST changes in the block's turn only where INIT is executed. -/
theorem blockStep_st {u t : State} (h : BlockStep u t) (hst : t.st ≠ u.st) :
    u.phase = .decode ∧ decodeCommand u.cmd = .cmdInit := by
  rcases h with ⟨-, rfl⟩ | ⟨hp, hx⟩ | ⟨e, -, rfl⟩ | ⟨tx, k, i, -, -, rfl⟩ | ⟨tx, k, e, -, -, rfl⟩
  · exact absurd (accept_st u) hst
  · exact ⟨hp, by_contra fun hinit => hst (exec_st hinit hx)⟩
  · exact absurd rfl hst
  · exact absurd (resume_st k _) hst
  · exact absurd (resume_st k _) hst

/-- Settles O8: only an acceptance changes the offers, and it needs BUSY at 0. -/
theorem busyHoldsOffers : Obligations.BusyHoldsOffers := by
  intro s t hb h
  obtain ⟨ts, n, ⟨-, rfl⟩ | ⟨-, y, -, -, rfl⟩ | ⟨-, hblock⟩⟩ := step_turns h
  · rfl
  · rfl
  · rcases blockStep_mild hblock with rfl | ⟨-, hin, -⟩
    · rw [accept_of_busy (s := { s with sched := ts, fresh := n }) hb]
    · exact hin

/-- Settles O9: DevComplete, a reset and an acceptance issue nothing; every other step is mild. -/
theorem stepIssuesAtMostOneTransaction : Obligations.StepIssuesAtMostOneTransaction := by
  intro s t h
  obtain ⟨ts, n, ⟨-, rfl⟩ | ⟨-, y, -, -, rfl⟩ | ⟨-, hblock⟩⟩ := step_turns h
  · exact .inl rfl
  · exact .inl rfl
  · rcases blockStep_mild hblock with rfl | ⟨-, -, -, -, -, -, -, htrace⟩
    · exact .inl (accept_trace _)
    · exact htrace

/-- Settles O52: a reset and the block's turn keep the array, BP and SRWD; DevComplete needs a pending cycle. -/
theorem onlyDevCompleteChangesArray : Obligations.OnlyDevCompleteChangesArray := by
  intro s t h hchange
  obtain ⟨ts, n, ⟨-, rfl⟩ | ⟨hturn, y, hy, -, -⟩ | ⟨-, hblock⟩⟩ := step_turns h
  · simp at hchange
  · exact ⟨hturn, y, hy⟩
  · rcases blockStep_mild hblock with rfl | ⟨-, -, -, harr, hbp, hsrwd, -⟩
    · simp at hchange
    · simp [harr, hbp, hsrwd] at hchange

/-- Settles O51: no turn changes the parameters or bits 6:4; ST is written by a reset and by INIT. -/
theorem parametersAndReservedBitsFixed : Obligations.ParametersAndReservedBitsFixed := by
  intro s t h
  obtain ⟨ts, n, ⟨hturn, rfl⟩ | ⟨-, y, -, -, rfl⟩ | ⟨-, hblock⟩⟩ := step_turns h
  · exact ⟨rfl, rfl, fun _ => .inl hturn⟩
  · exact ⟨rfl, rfl, fun hst => absurd rfl hst⟩
  · have hkeeps : t.params = s.params ∧ t.dev.rsv = s.dev.rsv := by
      rcases blockStep_mild hblock with rfl | ⟨hpar, -, -, -, -, -, hrsv, -⟩
      · exact ⟨accept_params _, by rw [accept_dev]⟩
      · exact ⟨hpar, hrsv⟩
    exact ⟨hkeeps.1, hkeeps.2, fun hst => .inr (blockStep_st (u := { s with sched := ts, fresh := n }) hblock hst)⟩

end Sys2Proof.Machine
end

section
/-! PROOFS. 10_state.md sections 2 and 4, 42_read_write.md section 3: the invariant. How the sequencer goes on from a
state of the invariant, how every command's first step ends, and from these what each step keeps. -/

namespace Sys2Proof.Machine

/-! A poll's answer. -/

theorem pollAnswer_of_not_wip {e : PollEnd} {s : State} (h : wipOf (rxByte 1 s) = false) :
    pollAnswer e s = pollReturn e s := by
  simp [pollAnswer, h]

theorem pollAnswer_of_wip {e : PollEnd} {s : State} (h : wipOf (rxByte 1 s) = true) :
    pollAnswer e s = pollBusy e s := by
  simp [pollAnswer, h]

theorem pollBusy_of_no_limit {e : PollEnd} {s : State} (h : s.params.pollLimit = none) :
    pollBusy e s = stopAtSleep e s := by
  simp [pollBusy, h]

theorem pollBusy_of_below {e : PollEnd} {s : State} {l : Nat} (h : s.params.pollLimit = some l)
    (hl : s.seq.polls + 1 < l) : pollBusy e s = stopAtSleep e (countBusy s) := by
  simp only [pollBusy, h, if_neg (Nat.not_le.mpr hl)]

theorem pollBusy_of_limit {e : PollEnd} {s : State} {l : Nat} (h : s.params.pollLimit = some l)
    (hl : l ≤ s.seq.polls + 1) : pollBusy e s = raise .deviceTimeout (countBusy s) := by
  simp only [pollBusy, h, if_pos hl]

/-! How a step of a command ends. -/

/-- The command has ended, not with PAGE_BOUNDARY, or stands where the invariant wants it with RSP_CODE as before. -/
def EndsOrRuns (s t : State) : Prop :=
  (∃ c, c ≠ .pageBoundary ∧ Ends c t) ∨ (t.busy = true ∧ t.phase ≠ .idle ∧ PhaseOk t ∧ t.rspCode = s.rspCode)

theorem phaseOk_of_idle {s : State} (h : s.phase = .idle) : PhaseOk s := by
  simp [PhaseOk, h]

theorem EndsOrRuns.busy_iff {s t : State} (h : EndsOrRuns s t) : t.busy = true ↔ t.phase ≠ .idle := by
  rcases h with ⟨c, -, -, hb, hp⟩ | ⟨hb, hp, -, -⟩ <;> simp [hb, hp]

theorem EndsOrRuns.phaseOk {s t : State} (h : EndsOrRuns s t) : PhaseOk t := by
  rcases h with ⟨c, -, -, -, hp⟩ | ⟨-, -, hok, -⟩
  · exact phaseOk_of_idle hp
  · exact hok

theorem stopAtSleep_phaseOk {e : PollEnd} {s : State} (hw : e = .subWrite → WriteRegsOk s) (hp : PollsOk s) :
    PhaseOk (stopAtSleep e s) := by
  cases e
  case subWrite => exact ⟨hw rfl, hp⟩
  case done => exact hp

/-- A busy reading ends DEVICE_TIMEOUT or sleeps, with POLLS still below a limit. -/
theorem pollBusy_endsOrRuns {e : PollEnd} {s : State} (hw : e = .subWrite → WriteRegsOk s) (hp : PollsOk s) :
    EndsOrRuns s (pollBusy e s) := by
  cases hlimit : s.params.pollLimit with
  | none =>
    rw [pollBusy_of_no_limit hlimit]
    exact .inr ⟨rfl, nofun, stopAtSleep_phaseOk hw hp, rfl⟩
  | some l =>
    by_cases hl : l ≤ s.seq.polls + 1
    · rw [pollBusy_of_limit hlimit hl]
      exact .inl ⟨.deviceTimeout, by decide, rfl, rfl, rfl⟩
    · rw [pollBusy_of_below hlimit (Nat.not_le.mp hl)]
      have hcount : PollsOk (countBusy s) := by
        intro l' hl' _
        rw [show s.params.pollLimit = some l' from hl'] at hlimit
        cases hlimit
        exact Nat.not_le.mp hl
      exact .inr ⟨rfl, nofun, stopAtSleep_phaseOk hw hcount, rfl⟩

/-- A poll's answer ends the command or the poll, or sleeps. -/
theorem pollAnswer_endsOrRuns {e : PollEnd} {s : State} (hw : e = .subWrite → WriteRegsOk s) (hp : PollsOk s) :
    EndsOrRuns s (pollAnswer e s) := by
  cases hwip : wipOf (rxByte 1 s) with
  | true => rw [pollAnswer_of_wip hwip]; exact pollBusy_endsOrRuns hw hp
  | false =>
    rw [pollAnswer_of_not_wip hwip]
    cases e
    case subWrite => exact .inr ⟨rfl, nofun, ⟨rfl, hw rfl⟩, rfl⟩
    case done => exact .inl ⟨.ok, by decide, rfl, rfl, rfl⟩

/-! After a sub-write (rule R520). -/

/-- The registers after a sub-write: no width overflows, and what is left lies in the array. -/
theorem advance_writeRegs {s : State} (h : WriteRegsOk s) :
    (advance s).seq.a.toNat = s.seq.a.toNat + s.seq.n.toNat
      ∧ (advance s).seq.off.toNat = s.seq.off.toNat + s.seq.n.toNat
      ∧ (advance s).seq.rem.toNat = s.seq.rem.toNat - s.seq.n.toNat := by
  obtain ⟨hlen, hdata, hend, -, hn, -, -⟩ := h
  exact advance_seq hn hend (by omega)

theorem nextChunk_of_last {s : State} (h : WriteRegsOk s) (hl : s.seq.n.toNat = s.seq.rem.toNat) :
    nextChunk s = startPoll .done (advance s) := by
  obtain ⟨-, -, hrem⟩ := advance_writeRegs h
  refine if_pos (BitVec.eq_of_toNat_eq ?_)
  rw [hrem, hl, Nat.sub_self]
  rfl

/-- Where something is left the sub-write has reached a page's end, so a whole page is the next cap. -/
theorem pageOff_advance {s : State} (h : WriteRegsOk s) (hl : s.seq.n.toNat ≠ s.seq.rem.toNat) :
    pageOff (advance s).seq.a.toNat = 0 := by
  obtain ⟨ha, -, -⟩ := advance_writeRegs h
  obtain ⟨-, -, -, -, -, -, hstop⟩ := h
  rw [ha]
  exact hstop.resolve_left hl

theorem advance_inArray {s : State} (h : WriteRegsOk s) :
    (advance s).seq.a.toNat + (advance s).seq.rem.toNat ≤ addrLimit := by
  obtain ⟨ha, -, hrem⟩ := advance_writeRegs h
  obtain ⟨-, -, hend, -, hn, -, -⟩ := h
  omega

theorem advance_rem_ne_zero {s : State} (h : WriteRegsOk s) (hl : s.seq.n.toNat ≠ s.seq.rem.toNat) :
    (advance s).seq.rem ≠ 0 := by
  intro h0
  obtain ⟨-, -, hrem⟩ := advance_writeRegs h
  obtain ⟨-, -, -, -, hn, -, -⟩ := h
  simp only [h0, BitVec.toNat_zero, BitVec.ofNat_eq_ofNat] at hrem
  omega

theorem nextChunk_of_more {s : State} (h : WriteRegsOk s) (hl : s.seq.n.toNat ≠ s.seq.rem.toNat) :
    nextChunk s
      = startPoll .subWrite (setChunk (min pageSize (s.seq.rem.toNat - s.seq.n.toNat)) (advance s)) := by
  obtain ⟨-, -, hrem⟩ := advance_writeRegs h
  have hpage : pageOff (advance s).seq.a.toNat + pageSize ≤ pageSize := by rw [pageOff_advance h hl, Nat.zero_add]
  rw [← hrem]
  exact (writeLoop_of_inRange (advance_inArray h) (by decide) hpage).trans (if_neg (advance_rem_ne_zero h hl))

/-- The next sub-write's registers are again as the invariant wants them. -/
theorem setChunk_advance_writeRegsOk {s : State} (h : WriteRegsOk s) (hl : s.seq.n.toNat ≠ s.seq.rem.toNat) :
    WriteRegsOk (setChunk (min pageSize (s.seq.rem.toNat - s.seq.n.toNat)) (advance s)) := by
  obtain ⟨-, hoff, hrem⟩ := advance_writeRegs h
  have hpage : pageOff (advance s).seq.a.toNat + pageSize = pageSize := by rw [pageOff_advance h hl, Nat.zero_add]
  have hcap := setChunk_writeRegsOk (cap := pageSize) (advance_rem_ne_zero h hl) (s := advance s)
  rw [hrem] at hcap
  refine hcap ?_ h.2.1 (hrem ▸ advance_inArray h) (by decide) hpage
  obtain ⟨hlen, -, -, -, hn, -, -⟩ := h
  rw [hoff, show (advance s).cmd.data.length = s.cmd.data.length from rfl]
  omega

theorem nextChunk_endsOrRuns {s : State} (h : WriteRegsOk s) : EndsOrRuns s (nextChunk s) := by
  by_cases hl : s.seq.n.toNat = s.seq.rem.toNat
  · rw [nextChunk_of_last h hl]
    exact .inr ⟨rfl, nofun, ⟨rfl, startPoll_pollsOk _ _⟩, rfl⟩
  · rw [nextChunk_of_more h hl]
    exact .inr ⟨rfl, nofun, ⟨rfl, setChunk_advance_writeRegsOk h hl, startPoll_pollsOk _ _⟩, rfl⟩

/-- Going on after any frame from where the invariant has PHASE, whatever the device answered. -/
theorem resume_endsOrRuns {s : State} {tx : List Byte} {k : Cont} (tx' : List Byte) (hp : s.phase = .xfer tx k)
    (h : PhaseOk s) : EndsOrRuns s (resume k (exchange tx' s)) := by
  simp only [PhaseOk, hp] at h
  cases k with
  | poll e =>
    cases e with
    | subWrite => exact pollAnswer_endsOrRuns (s := exchange tx' s) (fun _ => h.2.1) h.2.2
    | done => exact pollAnswer_endsOrRuns (s := exchange tx' s) nofun h.2
  | subWrite => exact nextChunk_endsOrRuns (s := exchange tx' s) h.2
  | thenPoll => exact .inr ⟨rfl, nofun, ⟨rfl, startPoll_pollsOk _ _⟩, rfl⟩
  | finish => exact .inl ⟨.ok, by decide, rfl, rfl, rfl⟩

/-! The frames the block issues (rule R320). -/

theorem frameOk_encRdsr (p : Params) : FrameOk (encRdsr p) := ⟨_, decodeFrame_encRdsr p, trivial⟩
theorem frameOk_encRdid (p : Params) : FrameOk (encRdid p) := ⟨_, decodeFrame_encRdid p, trivial⟩
theorem frameOk_encWrsr (v : Byte) : FrameOk (encWrsr v) := ⟨_, decodeFrame_encWrsr v, trivial⟩
theorem frameOk_encPe (a : Addr24) : FrameOk (encPe a) := ⟨_, decodeFrame_encPe a, trivial⟩
theorem frameOk_encSe (a : Addr24) : FrameOk (encSe a) := ⟨_, decodeFrame_encSe a, trivial⟩
theorem frameOk_encCe : FrameOk encCe := ⟨.spiCe, rfl, trivial⟩
theorem frameOk_encWren : FrameOk encWren := ⟨.spiWren, rfl, trivial⟩
theorem frameOk_encWrdi : FrameOk encWrdi := ⟨.spiWrdi, rfl, trivial⟩
theorem frameOk_encDpd : FrameOk encDpd := ⟨.spiDpd, rfl, trivial⟩

/-- The sub-write's frame lies in the array and in one page. -/
theorem frameOk_chunkFrame {s : State} (h : WriteRegsOk s) : FrameOk (chunkFrame s) := by
  have hlen := chunkData_length h
  refine ⟨_, decodeFrame_chunkFrame h, ?_⟩
  obtain ⟨-, -, hend, hpos, hn, hpage, -⟩ := h
  simp only [BlockOperands, hlen, BitVec.toNat_setWidth, page, pageOff, pageSize, addrLimit] at *
  omega

/-- In the invariant PHASE stands only before frames the block may issue. -/
theorem frameOk_of_phaseOk {s : State} {tx : List Byte} {k : Cont} (hp : s.phase = .xfer tx k) (h : PhaseOk s) :
    FrameOk tx := by
  simp only [PhaseOk, hp] at h
  cases k with
  | poll e => cases e <;> exact h.1 ▸ frameOk_encRdsr s.params
  | subWrite => exact h.1 ▸ frameOk_chunkFrame h.2
  | thenPoll => obtain ⟨v, rfl⟩ := h; exact frameOk_encWrsr v
  | finish => exact h

/-- The frame of a decoded instruction decodes to it again, so the block may issue it too. -/
theorem frameOk_spiFrame (p : Params) {tx : List Byte} {i : Instr} (hd : decodeFrame tx = .ok i) (h : FrameOk tx) :
    FrameOk (spiFrame p i) := by
  obtain ⟨j, hj, hops⟩ := h
  cases hd.symm.trans hj
  have hdec := decodeInvertsEncode p i (wellFormed_of_decodeFrame hd)
  rw [encode_of_isSpi p (isSpi_of_decodeFrame hd)] at hdec
  exact ⟨i, hdec, hops⟩

/-! What a command's step does at the port. -/

/-- Nothing, or one transaction of a frame the block may issue. -/
def UsesPortOnce (s t : State) : Prop :=
  (t.dev = s.dev ∧ t.trace = s.trace)
    ∨ ∃ tx u, FrameOk tx ∧ u.dev = s.dev ∧ u.trace = s.trace ∧ t.dev = (exchange tx u).dev
        ∧ t.trace = (exchange tx u).trace

theorem UsesPortOnce.deviceOk {s t : State} (h : UsesPortOnce s t) (hs : DeviceOk s.dev) : DeviceOk t.dev := by
  rcases h with ⟨hdev, -⟩ | ⟨tx, u, -, hu, -, hdev, -⟩
  · rwa [hdev]
  · rw [hdev]
    exact exchange_deviceOk (hu ▸ hs)

theorem UsesPortOnce.traceOk {s t : State} (h : UsesPortOnce s t) (hs : TraceOk s) : TraceOk t := by
  unfold TraceOk at hs ⊢
  rcases h with ⟨-, htr⟩ | ⟨tx, u, hf, -, hu, -, htr⟩
  · rwa [htr]
  · intro x hx
    rw [htr, exchange_trace, hu, List.mem_append, List.mem_singleton] at hx
    rcases hx with hx | rfl
    · exact hs x hx
    · exact ⟨(exchange_issues tx u).1, hf⟩

/-- One step of a command: the lines stay inactive, the port is used at most once, and the command ends or runs on. -/
structure CommandStep (s t : State) : Prop where
  lines : s.holdN = true ∧ s.wpN = true → t.holdN = true ∧ t.wpN = true
  port : UsesPortOnce s t
  outcome : EndsOrRuns s t

theorem commandStep_raise {c : ResultCode} (s : State) (hc : c ≠ .pageBoundary) : CommandStep s (raise c s) :=
  ⟨id, .inl ⟨rfl, rfl⟩, .inl ⟨c, hc, rfl, rfl, rfl⟩⟩

theorem commandStep_whenReady {body : State → State} {s : State} (h : CommandStep s (body s)) :
    CommandStep s (whenReady body s) := by
  cases hst : s.st with
  | ready => rwa [whenReady_ready hst]
  | uninit => rw [whenReady_uninit hst]; exact commandStep_raise s (by decide)

/-- A transaction and what ends the command: `finish`, or a result byte and `finish`, or the bytes of a READ. -/
theorem commandStep_finish {tx : List Byte} {s : State} (v : Byte) (bs : List Byte) (h : FrameOk tx) :
    CommandStep s (finish { exchange tx s with rspByte := v, rspData := bs }) :=
  ⟨id, .inr ⟨tx, s, h, rfl, rfl, rfl, rfl⟩, .inl ⟨.ok, by decide, rfl, rfl, rfl⟩⟩

/-- A transaction and the start of the final poll. -/
theorem commandStep_startPoll {tx : List Byte} {s : State} (h : FrameOk tx) :
    CommandStep s (startPoll .done (exchange tx s)) :=
  ⟨id, .inr ⟨tx, s, h, rfl, rfl, rfl, rfl⟩, .inr ⟨rfl, nofun, ⟨rfl, startPoll_pollsOk _ _⟩, rfl⟩⟩

theorem commandStep_getField (field : Byte → Byte) (s : State) : CommandStep s (getField field s) :=
  commandStep_finish _ _ (frameOk_encRdsr s.params)

theorem commandStep_setField (change : Byte → Byte) (s : State) : CommandStep s (setField change s) :=
  ⟨id, .inr ⟨_, s, frameOk_encRdsr s.params, rfl, rfl, rfl, rfl⟩, .inr ⟨rfl, nofun, ⟨_, rfl⟩, rfl⟩⟩

theorem commandStep_eraseAt {frame : Addr24 → List Byte} (addr : Word32) (s : State) (h : ∀ a, FrameOk (frame a)) :
    CommandStep s (eraseAt frame addr s) := by
  unfold eraseAt
  split
  · exact commandStep_raise s (by decide)
  · exact commandStep_startPoll (h _)

theorem driveLinesInactive_lines {s : State} (h : s.holdN = true ∧ s.wpN = true) :
    (driveLinesInactive s).holdN = true ∧ (driveLinesInactive s).wpN = true := by
  unfold driveLinesInactive
  split
  · exact ⟨rfl, rfl⟩
  · exact h

theorem driveLinesInactive_dev (s : State) : (driveLinesInactive s).dev = s.dev := by
  unfold driveLinesInactive; split <;> rfl

theorem driveLinesInactive_trace (s : State) : (driveLinesInactive s).trace = s.trace := by
  unfold driveLinesInactive; split <;> rfl

theorem commandStep_init (s : State) :
    CommandStep s (checkIdentity (exchange (encRdid s.params) (driveLinesInactive s))) := by
  have hport (t : State) (h1 : t.dev = (exchange (encRdid s.params) (driveLinesInactive s)).dev)
      (h2 : t.trace = (exchange (encRdid s.params) (driveLinesInactive s)).trace) : UsesPortOnce s t :=
    .inr ⟨_, _, frameOk_encRdid s.params, driveLinesInactive_dev s, driveLinesInactive_trace s, h1, h2⟩
  unfold checkIdentity
  split
  · exact ⟨driveLinesInactive_lines, hport _ rfl rfl, .inl ⟨.ok, by decide, rfl, rfl, rfl⟩⟩
  · exact ⟨driveLinesInactive_lines, hport _ rfl rfl, .inl ⟨.initialization, by decide, rfl, rfl, rfl⟩⟩

/-! Operands in range (rule R500). -/

/-- An operand that is not negative is its own unsigned value. -/
theorem toInt_eq_toNat_of_nonneg {addr : Word32} (h : 0 ≤ addr.toInt) : addr.toInt = addr.toNat := by
  rw [BitVec.toInt_eq_toNat_cond] at h ⊢
  split at h
  · rw [if_pos ‹_›]
  · have := addr.isLt; omega

/-- Operands in range, as unsigned numbers. -/
theorem toNat_add_le_of_inRange {addr : Word32} {n : Nat} (h : inRange (intAddr addr) n = true) :
    addr.toNat + n ≤ addrLimit := by
  obtain ⟨h0, h1⟩ := (inRange_eq_true_iff _ _).mp h
  have hnat := toInt_eq_toNat_of_nonneg h0
  simp only [intAddr, addrLimit] at *
  omega

/-- The address field holds an address of the array. -/
theorem fieldAddr_toNat {addr : Word32} (h : addr.toNat ≤ addrLimit) : (fieldAddr addr).toNat = addr.toNat := by
  simp only [addrLimit] at h
  rw [BitVec.toNat_setWidth]
  omega

theorem frameOk_encRead (p : Params) {addr : Word32} {n : Nat} (h : addr.toNat + n ≤ addrLimit) :
    FrameOk (encRead p (fieldAddr addr) n) := by
  refine ⟨_, decodeFrame_encRead p _ n, ?_⟩
  simp only [BlockOperands]
  rwa [fieldAddr_toNat (by omega)]

/-! WRITE's first step (rule R520). -/

/-- WRITE's registers before its loop: the payload in CMD_DATA, all of it to be written from the address on. -/
def loadWrite (addr : Word32) (data : List Byte) (s : State) : State :=
  { s with
    cmd := { s.cmd with data := data }
    seq := { s.seq with a := addr.setWidth 18, off := 0, rem := BitVec.ofNat 18 data.length } }

theorem startWrite_eq_writeLoop (addr : Word32) (data : List Byte) (s : State) :
    startWrite addr data s = writeLoop (firstCap (addr.setWidth 18).toNat) (loadWrite addr data s) := rfl

/-- The size of the first sub-write of a payload. -/
def firstSize (addr : Word32) (data : List Byte) : Nat := min (firstCap addr.toNat) data.length

/-- WRITE's registers before its first poll: `N` too, where there is a sub-write. -/
def firstRegs (addr : Word32) (data : List Byte) (s : State) : State :=
  if data = [] then loadWrite addr data s else setChunk (firstSize addr data) (loadWrite addr data s)

/-- What WRITE's first poll is for. -/
def firstPollEnd (data : List Byte) : PollEnd := if data = [] then .done else .subWrite

section
variable (addr : Word32) (data : List Byte) (s : State)

@[simp] theorem firstRegs_params : (firstRegs addr data s).params = s.params := by unfold firstRegs; split <;> rfl
@[simp] theorem firstRegs_st : (firstRegs addr data s).st = s.st := by unfold firstRegs; split <;> rfl
@[simp] theorem firstRegs_holdN : (firstRegs addr data s).holdN = s.holdN := by unfold firstRegs; split <;> rfl
@[simp] theorem firstRegs_wpN : (firstRegs addr data s).wpN = s.wpN := by unfold firstRegs; split <;> rfl
@[simp] theorem firstRegs_dev : (firstRegs addr data s).dev = s.dev := by unfold firstRegs; split <;> rfl
@[simp] theorem firstRegs_trace : (firstRegs addr data s).trace = s.trace := by unfold firstRegs; split <;> rfl
@[simp] theorem firstRegs_inputs : (firstRegs addr data s).inputs = s.inputs := by unfold firstRegs; split <;> rfl
@[simp] theorem firstRegs_sched : (firstRegs addr data s).sched = s.sched := by unfold firstRegs; split <;> rfl
@[simp] theorem firstRegs_rspCode : (firstRegs addr data s).rspCode = s.rspCode := by unfold firstRegs; split <;> rfl
@[simp] theorem firstRegs_rspByte : (firstRegs addr data s).rspByte = s.rspByte := by unfold firstRegs; split <;> rfl
@[simp] theorem firstRegs_rspData : (firstRegs addr data s).rspData = s.rspData := by unfold firstRegs; split <;> rfl
@[simp] theorem firstRegs_cmd : (firstRegs addr data s).cmd = { s.cmd with data := data } := by
  unfold firstRegs; split <;> rfl

end

section
variable {addr : Word32} {data : List Byte} (h : addr.toNat + data.length ≤ addrLimit)
include h

/-- A payload in range fits the 18-bit registers (rule R102). -/
theorem loadWrite_seq (s : State) :
    (loadWrite addr data s).seq.a.toNat = addr.toNat ∧ (loadWrite addr data s).seq.rem.toNat = data.length := by
  simp only [addrLimit] at h
  simp only [loadWrite, BitVec.toNat_setWidth, BitVec.toNat_ofNat]
  omega

theorem loadWrite_rem_eq_zero_iff (s : State) : (loadWrite addr data s).seq.rem = 0 ↔ data = [] := by
  rw [← List.length_eq_zero_iff, ← (loadWrite_seq h s).2]
  exact BitVec.toNat_eq

theorem startWrite_of_inRange (s : State) :
    startWrite addr data s = startPoll (firstPollEnd data) (firstRegs addr data s) := by
  obtain ⟨ha, hrem⟩ := loadWrite_seq h s
  obtain ⟨hcap, hpage⟩ := firstCap_spec addr.toNat
  have hloop := writeLoop_of_inRange (cap := firstCap addr.toNat) (s := loadWrite addr data s)
    (by rw [ha, hrem]; exact h) hcap (by rw [ha]; exact hpage.le)
  simp only [loadWrite_rem_eq_zero_iff h, hrem] at hloop
  rw [startWrite_eq_writeLoop, show (addr.setWidth 18).toNat = addr.toNat from ha, hloop]
  unfold firstPollEnd firstRegs
  split <;> rfl

theorem firstRegs_writeRegsOk (hne : data ≠ []) (s : State) : WriteRegsOk (firstRegs addr data s) := by
  obtain ⟨ha, hrem⟩ := loadWrite_seq h s
  obtain ⟨hcap, hpage⟩ := firstCap_spec addr.toNat
  have hregs := setChunk_writeRegsOk (cap := firstCap addr.toNat) (s := loadWrite addr data s)
    (mt (loadWrite_rem_eq_zero_iff h s).mp hne)
  rw [ha, hrem] at hregs
  rw [firstRegs, if_neg hne]
  exact hregs (Nat.zero_add _) (show data.length ≤ addrLimit by omega) h hcap hpage

/-- WRITE's first step is the RDSR of its first poll. -/
theorem issueAtPhase_startWrite (s : State) :
    issueAtPhase (startWrite addr data s) = resume (.poll (firstPollEnd data))
      (exchange (encRdsr s.params) (startPoll (firstPollEnd data) (firstRegs addr data s))) := by
  rw [startWrite_of_inRange h, ← firstRegs_params addr data s]
  rfl

theorem commandStep_write (s : State) : CommandStep s (issueAtPhase (startWrite addr data s)) := by
  have hw : firstPollEnd data = .subWrite → WriteRegsOk (firstRegs addr data s) := by
    intro he
    refine firstRegs_writeRegsOk h (fun hd => ?_) s
    simp [firstPollEnd, hd] at he
  rw [issueAtPhase_startWrite h]
  refine ⟨fun hs => by simpa using hs, .inr ⟨_, startPoll _ _, frameOk_encRdsr s.params, firstRegs_dev addr data s,
    firstRegs_trace addr data s, resume_dev _ _, resume_trace _ _⟩, ?_⟩
  have hruns := pollAnswer_endsOrRuns
    (s := exchange (encRdsr s.params) (startPoll (firstPollEnd data) (firstRegs addr data s))) hw
    (startPoll_pollsOk (firstPollEnd data) (firstRegs addr data s))
  unfold EndsOrRuns at hruns ⊢
  rwa [exchange_rspCode, startPoll_rspCode, firstRegs_rspCode] at hruns

end

/-- Every command's first step, from any state: the checks before it are enough. -/
theorem exec_commandStep {i : Instr} {s t : State} (hi : isSpi i = false) (h : exec i s = .next t) :
    CommandStep s t := by
  cases i
  case spiRead | spiWrite | spiWren | spiWrdi | spiRdsr | spiWrsr | spiPe | spiSe | spiCe | spiRdid | spiDpd => cases hi
  all_goals injection h with h; subst h
  case cmdInit => exact commandStep_init s
  case cmdReserved op => exact commandStep_raise s (by decide)
  all_goals refine commandStep_whenReady ?_
  case cmdRead addr len =>
    split
    · rename_i hin
      exact commandStep_finish _ _ (frameOk_encRead s.params (toNat_add_le_of_inRange hin))
    · exact commandStep_raise s (by decide)
  case cmdWrite addr data =>
    split
    · rename_i hin
      exact commandStep_write (toNat_add_le_of_inRange hin) s
    · exact commandStep_raise s (by decide)
  case cmdReadStatus | cmdGetWel | cmdGetWip | cmdGetBp | cmdGetSrwd => exact commandStep_getField _ s
  case cmdWriteStatus arg => exact commandStep_startPoll (frameOk_encWrsr arg)
  case cmdSetWel arg =>
    split
    · exact commandStep_raise s (by decide)
    · exact commandStep_finish _ _ frameOk_encWren
    · exact commandStep_finish _ _ frameOk_encWrdi
  case cmdSetBp | cmdSetSrwd =>
    split
    · exact commandStep_raise s (by decide)
    · exact commandStep_setField _ s
  case cmdErasePage addr => exact commandStep_eraseAt addr s frameOk_encPe
  case cmdEraseSector addr => exact commandStep_eraseAt addr s frameOk_encSe
  case cmdEraseChip => exact commandStep_startPoll frameOk_encCe
  case cmdDeepPowerDown => exact commandStep_finish _ _ frameOk_encDpd
  case cmdWake => exact commandStep_finish _ _ (frameOk_encRdid s.params)

/-! The block's turn and the step. -/

theorem Inv.deviceOk {s : State} (h : Inv s) : DeviceOk s.dev := h.1

theorem Inv.array_wf {s : State} (h : Inv s) : Memory.wf s.dev.arr := h.deviceOk.1

theorem Inv.phaseOk {s : State} (h : Inv s) : PhaseOk s := by
  obtain ⟨-, -, hphase, -⟩ := h
  exact hphase

theorem isSpi_decodeCommand (r : CommandRegs) : isSpi (decodeCommand r) = false :=
  (commandDecodingIsTotal Params.default r).1

/-- A poll's Sleep is over: its RDSR is next. -/
theorem commandStep_pollAgain {e : PollEnd} {s : State} (hp : s.phase = .sleep e) (h : PhaseOk s) :
    CommandStep s (pollAgain e s) := by
  refine ⟨id, .inl ⟨rfl, rfl⟩, .inr ⟨rfl, nofun, ?_, rfl⟩⟩
  cases e <;> simp only [PhaseOk, hp] at h <;> exact ⟨rfl, h⟩

theorem commandStep_xfer {s : State} {tx tx' : List Byte} {k : Cont} (hp : s.phase = .xfer tx k) (h : PhaseOk s)
    (hf : FrameOk tx') : CommandStep s (resume k (exchange tx' s)) := by
  exact ⟨fun hs => by simpa using hs, .inr ⟨tx', s, hf, rfl, rfl, resume_dev k _, resume_trace k _⟩,
    resume_endsOrRuns tx' hp h⟩

/-- In the invariant the block accepts an offer, or takes a step of its command. -/
theorem blockStep_commandStep {u t : State} (hok : PhaseOk u) (h : BlockStep u t) :
    (u.phase = .idle ∧ t = accept u) ∨ CommandStep u t := by
  rcases h with hacc | ⟨-, hx⟩ | ⟨e, hp, rfl⟩ | ⟨tx, k, i, hp, hd, rfl⟩ | ⟨tx, k, e, hp, hd, rfl⟩
  · exact .inl hacc
  · exact .inr (exec_commandStep (isSpi_decodeCommand u.cmd) hx)
  · exact .inr (commandStep_pollAgain hp hok)
  · exact .inr (commandStep_xfer hp hok (frameOk_spiFrame _ hd (frameOk_of_phaseOk hp hok)))
  · obtain ⟨i, hi, -⟩ := frameOk_of_phaseOk hp hok
    cases hd.symm.trans hi

theorem inv_commandStep {s t : State} (hs : Inv s) (h : CommandStep s t) : Inv t := by
  obtain ⟨hdev, -, -, hlines⟩ := hs
  exact ⟨h.port.deviceOk hdev, h.outcome.busy_iff, h.outcome.phaseOk, h.lines hlines⟩

theorem inv_accept {s : State} (hp : s.phase = .idle) (hs : Inv s) : Inv (accept s) := by
  obtain ⟨hdev, hbusy, -, hlines⟩ := hs
  have hb : s.busy = false := eq_false_of_ne_true fun h => hbusy.mp h hp
  cases hin : s.inputs with
  | nil => rw [accept_of_no_offer hin]; exact ⟨hdev, hbusy, phaseOk_of_idle hp, hlines⟩
  | cons r rest => rw [accept_of_offer hb hin]; exact ⟨hdev, by simp, trivial, hlines⟩

theorem inv_blockReset {s : State} (hs : Inv s) : Inv (blockReset s) := by
  obtain ⟨hdev, -, -, hh, hw⟩ := hs
  exact ⟨hdev, by simp, trivial, by simp [blockReset, hh], by simp [blockReset, hw]⟩

/-- The invariant looks at neither the environment's list nor the free counter, and PHASE's part not at the device. -/
theorem inv_of_device {s : State} {ts : List Turn} {n : Nat} {d : Device} (hs : Inv s) (hd : DeviceOk d) :
    Inv { s with sched := ts, fresh := n, dev := d } := by
  obtain ⟨-, hbusy, hphase, hlines⟩ := hs
  exact ⟨hd, hbusy, hphase, hlines⟩

/-- Settles O47: a reset leaves no command, DevComplete keeps the device's part, the block accepts or steps. -/
theorem stepKeepsInvariant : Obligations.StepKeepsInvariant := by
  intro s t hs h
  obtain ⟨ts, n, ⟨-, rfl⟩ | ⟨-, y, -, hin, rfl⟩ | ⟨-, hblock⟩⟩ := step_turns h
  · exact inv_blockReset (inv_of_device hs hs.deviceOk)
  · exact inv_of_device hs (cycleEffect_deviceOk hs.array_wf hin)
  · have hu : Inv { s with sched := ts, fresh := n } := inv_of_device hs hs.deviceOk
    rcases blockStep_commandStep hu.phaseOk hblock with ⟨hp, rfl⟩ | hstep
    · exact inv_accept hp hu
    · exact inv_commandStep hu hstep

/-- Settles O49: a reset, DevComplete and an acceptance issue nothing; a command's step issues frames of R301 only. -/
theorem blockIssuesOnlyItsFormats : Obligations.BlockIssuesOnlyItsFormats := by
  intro s t hs htrace h
  obtain ⟨ts, n, ⟨-, rfl⟩ | ⟨-, y, -, -, rfl⟩ | ⟨-, hblock⟩⟩ := step_turns h
  · exact htrace
  · exact htrace
  · rcases blockStep_commandStep (u := { s with sched := ts, fresh := n }) hs.phaseOk hblock with ⟨-, rfl⟩ | hstep
    · unfold TraceOk
      rw [accept_trace]
      exact htrace
    · exact hstep.port.traceOk htrace

/-- Settles O50: a command's step ends with another code or leaves RSP_CODE, and a reset writes OK. -/
theorem pageBoundaryNeverRaised : Obligations.PageBoundaryNeverRaised := by
  intro s t hs hcode h
  obtain ⟨ts, n, ⟨-, rfl⟩ | ⟨-, y, -, -, rfl⟩ | ⟨-, hblock⟩⟩ := step_turns h
  · exact nofun
  · exact hcode
  · rcases blockStep_commandStep (u := { s with sched := ts, fresh := n }) hs.phaseOk hblock with ⟨-, rfl⟩ | hstep
    · rw [accept_rspCode]
      exact hcode
    · rcases hstep.outcome with ⟨c, hc, hend, -⟩ | ⟨-, -, -, hsame⟩
      · rwa [hend]
      · rwa [hsame]

/-- Settles O48: the device's cycle is inside the array, and every instruction answers. -/
theorem stepNeverStops : Obligations.StepNeverStops := by
  intro s hs
  rcases hturn : takeTurn s with ⟨w, u⟩
  cases w with
  | reset => exact ⟨_, step_reset hturn⟩
  | device =>
    obtain ⟨y, hy⟩ := takeTurn_device hturn
    obtain ⟨⟨-, -, hin, -⟩, -⟩ := hs
    exact ⟨_, step_device hturn hy (hin y hy)⟩
  | block =>
    cases hp : u.phase with
    | idle => exact ⟨_, step_idle hturn hp⟩
    | decode =>
      obtain ⟨t, ht, -⟩ := exec_mild (decodeCommand u.cmd) u
      exact ⟨t, (step_command hturn hp).trans ht⟩
    | sleep e => exact ⟨_, step_sleep hturn hp⟩
    | xfer tx k =>
      have hu : PhaseOk u := by
        obtain ⟨ts, n, rfl⟩ := takeTurn_eq hturn
        exact hs.phaseOk
      obtain ⟨i, hi, -⟩ := frameOk_of_phaseOk hp hu
      exact ⟨_, step_frame hturn hp hi⟩

/-- Settles O46: the device at power-up has no cycle and an empty list of bytes; the block is idle. -/
theorem invariantHoldsAtReset : Obligations.InvariantHoldsAtReset :=
  ⟨⟨⟨Memory.wf_nil, rfl, nofun, fun _ => rfl⟩, by decide, trivial, rfl, rfl⟩, nofun⟩

/-- Settles O45: each value is that of `State.reset`. -/
theorem resetLeavesGivenValues : Obligations.ResetLeavesGivenValues :=
  ⟨rfl, rfl, rfl, rfl, rfl, rfl, rfl, rfl, rfl, rfl, rfl⟩

/-! RSP_CODE (10_state.md section 4), from any state. -/

/-- RSP_CODE is as before, or the command has ended. -/
def CodeKeptOrEnded (s t : State) : Prop :=
  t.rspCode = s.rspCode ∨ (t.busy = false ∧ t.phase = .idle)

theorem pollAnswer_code (e : PollEnd) (s : State) : CodeKeptOrEnded s (pollAnswer e s) := by
  unfold pollAnswer
  split
  · unfold pollBusy
    split
    · exact .inl rfl
    · split
      · exact .inr ⟨rfl, rfl⟩
      · exact .inl rfl
  · cases e
    case subWrite => exact .inl rfl
    case done => exact .inr ⟨rfl, rfl⟩

theorem writeLoop_code (cap : Nat) (s : State) : CodeKeptOrEnded s (writeLoop cap s) := by
  unfold writeLoop checkChunk
  split
  · exact .inl rfl
  · split
    · exact .inr ⟨rfl, rfl⟩
    · split
      · exact .inr ⟨rfl, rfl⟩
      · exact .inl rfl

theorem resume_code (k : Cont) (s : State) : CodeKeptOrEnded s (resume k s) := by
  cases k with
  | poll e => exact pollAnswer_code e s
  | subWrite => exact writeLoop_code pageSize (advance s)
  | thenPoll => exact .inl rfl
  | finish => exact .inr ⟨rfl, rfl⟩

theorem EndsOrRuns.code {s t : State} (h : EndsOrRuns s t) : CodeKeptOrEnded s t := by
  rcases h with ⟨c, -, -, hend⟩ | ⟨-, -, -, hsame⟩
  · exact .inr hend
  · exact .inl hsame

/-- The block's turn writes RSP_CODE only where it ends the command that runs. -/
theorem blockStep_code {u t : State} (h : BlockStep u t) (hne : t.rspCode ≠ u.rspCode) :
    (t.busy = false ∧ t.phase = .idle) ∧ u.phase ≠ .idle := by
  rcases h with ⟨-, rfl⟩ | ⟨hp, hx⟩ | ⟨e, -, rfl⟩ | ⟨tx, k, i, hp, -, rfl⟩ | ⟨tx, k, e, hp, -, rfl⟩
  · exact absurd (accept_rspCode u) hne
  · exact ⟨(exec_commandStep (isSpi_decodeCommand u.cmd) hx).outcome.code.resolve_left hne, by simp [hp]⟩
  · exact absurd rfl hne
  · exact ⟨(resume_code k _).resolve_left hne, by simp [hp]⟩
  · exact ⟨(resume_code k _).resolve_left hne, by simp [hp]⟩

/-- Settles O58: DevComplete leaves RSP_CODE, a reset leaves the block idle, and the block's turn ends a command. -/
theorem resultCodeWrittenOnlyAtEnd : Obligations.ResultCodeWrittenOnlyAtEnd := by
  intro s t h hne
  obtain ⟨ts, n, ⟨hturn, rfl⟩ | ⟨-, y, -, -, rfl⟩ | ⟨-, hblock⟩⟩ := step_turns h
  · exact ⟨rfl, rfl, .inl hturn⟩
  · exact absurd rfl hne
  · obtain ⟨⟨hb, hp⟩, hrun⟩ := blockStep_code (u := { s with sched := ts, fresh := n }) hblock hne
    exact ⟨hb, hp, .inr hrun⟩

end Sys2Proof.Machine
end

section
/-! PROOFS. 20_memory.md Part 2: the frames that carry an address or a status byte, the frames the device ignores, and
what no frame changes. -/

namespace Sys2Proof.Machine

/-! What a transaction leaves alone. -/

theorem exchange_keepsSequencer (tx : List Byte) (s : State) : KeepsSequencer s (exchange tx s) :=
  ⟨rfl, rfl, rfl, rfl, rfl, rfl, rfl⟩

theorem exchange_keepsArray (tx : List Byte) (s : State) : KeepsArray s (exchange tx s) :=
  fun a => by rw [exchange_arr]

theorem exchange_keepsProtection (tx : List Byte) (s : State) : KeepsProtection s (exchange tx s) :=
  ⟨exchange_bp tx s, exchange_srwd tx s, exchange_rsv tx s⟩

/-- Settles O11: an SPI instruction is the transaction of its own frame. -/
theorem spiInstructionIssuesItsFrame : Obligations.SpiInstructionIssuesItsFrame := by
  intro i s hi
  have hframe := encode_of_isSpi s.params hi
  exact ⟨_, _, hframe, exec_spi hi rfl hframe, exchange_issues _ s, ⟨rfl, rfl, rfl⟩, ⟨rfl, rfl, rfl⟩,
    exchange_keepsSequencer _ s, exchange_keepsArray _ s, exchange_keepsProtection _ s⟩

/-! READ (rule R236). -/

/-- The bytes received after the first `k`. -/
theorem reply_drop (c k n : Nat) (named : Nat → Option Byte) :
    (reply c (k + n) named).drop k = (List.range n).map fun j => (named (k + j)).getD (Config.draw c (k + j)) := by
  apply List.ext_getElem <;> simp [reply]

theorem frameAddr_encRead (p : Params) (a : Addr24) (n : Nat) : frameAddr (encRead p a n) = a.toNat % addrLimit :=
  frameAddr_enc24 _ a _

theorem encRead_length (p : Params) (a : Addr24) (n : Nat) : (encRead p a n).length = 4 + n := by
  simp only [encRead, List.length_cons, List.length_append, enc24_length, List.length_replicate]
  omega

/-- Where the device listens a READ changes nothing and answers the array. -/
theorem exchange_encRead (p : Params) {s : State} (a : Addr24) (n : Nat) (h : Listens 0x03#8 s.dev) :
    (exchange (encRead p a n) s).dev = s.dev
      ∧ (exchange (encRead p a n) s).rx.drop 4
        = (List.range n).map fun j => Memory.read s.dev.arr ((a.toNat + j) % addrLimit) := by
  have hans : answer s.params (wpInput s) s.fresh s.dev (encRead p a n) = answerRead s.fresh s.dev (encRead p a n) :=
    answer_of_listens h
  have hlen : 4 ≤ (encRead p a n).length := by rw [encRead_length]; omega
  unfold exchange
  rw [hans, answerRead, if_pos hlen, encRead_length]
  refine ⟨rfl, (reply_drop _ _ _ _).trans ?_⟩
  simp only [Nat.le_add_right, if_true, Nat.add_sub_cancel_left, Option.getD_some, frameAddr_encRead, Nat.mod_add_mod]

/-- Settles O12: `exchange_encRead`. -/
theorem spiReadStreamsArray : Obligations.SpiReadStreamsArray :=
  fun s addr n h => ⟨_, rfl, exchange_issues _ s, exchange_encRead s.params addr n h⟩

/-! Frames that start a cycle where a gate lets them through (rules R238, R246, R252 to R256). -/

/-- A frame the device takes, whose meaning is a cycle behind a gate `c`, starts it exactly where accepted. -/
theorem exchange_gated {op : Byte} {rest : List Byte} {s : State} {y : Cycle} {c accepted : Prop} [Decidable c]
    (hans : answerByOpcode s.params (wpInput s) s.fresh s.dev op (op :: rest) =
      if c then drawnReply s.fresh (startCycle y s.dev) (op :: rest) else drawnReply s.fresh s.dev (op :: rest))
    (hacc : accepted ↔ Listens op s.dev ∧ c) :
    (accepted → (exchange (op :: rest) s).dev = startCycle y s.dev)
      ∧ (¬accepted → (exchange (op :: rest) s).dev = s.dev) := by
  by_cases hl : Listens op s.dev
  · rw [exchange_of_listens hl, hans]
    by_cases hc : c
    · exact ⟨fun _ => by rw [if_pos hc]; rfl, fun hn => absurd (hacc.mpr ⟨hl, hc⟩) hn⟩
    · exact ⟨fun ha => absurd (hacc.mp ha).2 hc, fun _ => by rw [if_neg hc]; rfl⟩
  · exact ⟨fun ha => absurd (hacc.mp ha).1 hl, fun _ => (exchange_of_not_listens hl).1⟩

theorem frameAddr_encWrite (a : Addr24) (d : List Byte) : frameAddr (encWrite a d) = a.toNat % addrLimit :=
  frameAddr_enc24 _ a d

theorem encWrite_length (a : Addr24) (d : List Byte) : (encWrite a d).length = 4 + d.length := by
  simp only [encWrite, List.length_cons, List.length_append, enc24_length]
  omega

/-- The device accepts a WRITE of these bytes at an address (rule R238). -/
def AcceptsWrite (a : Nat) (d : List Byte) (s : State) : Prop :=
  Listens 0x02#8 s.dev ∧ d ≠ [] ∧ s.dev.wel = true ∧ protectedAt a s.dev.bp = false

theorem exchange_encWrite_dev (a : Addr24) (d : List Byte) (s : State) :
    (AcceptsWrite (a.toNat % addrLimit) d s →
        (exchange (encWrite a d) s).dev = startCycle (.write (a.toNat % addrLimit) d) s.dev)
      ∧ (¬AcceptsWrite (a.toNat % addrLimit) d s → (exchange (encWrite a d) s).dev = s.dev) := by
  rw [← frameAddr_encWrite a d]
  refine exchange_gated rfl (and_congr_right' (and_congr_left' ?_))
  have hlen := encWrite_length a d
  have hne : d ≠ [] ↔ 1 ≤ d.length := List.length_pos_iff.symm
  change d ≠ [] ↔ 5 ≤ (encWrite a d).length
  rw [hne, hlen]
  omega

/-- Settles O13: `exchange_encWrite_dev`, where the device listens. -/
theorem spiWriteStartsCycle : Obligations.SpiWriteStartsCycle :=
  fun s addr data hl => ⟨_, rfl, exchange_issues _ s, fun hc => (exchange_encWrite_dev addr data s).1 ⟨hl, hc⟩,
    fun hc => (exchange_encWrite_dev addr data s).2 fun ⟨_, h⟩ => hc h⟩

/-- The SRWD gate of rule R246, mode by mode. -/
theorem srwdRefuses_eq_false_iff (s : State) : srwdRefuses s.params (wpInput s) s.dev = false ↔ SrwdAllows s := by
  unfold srwdRefuses SrwdAllows
  cases s.params.devSrwdMode <;> simp

theorem exchange_encWrsr_dev (v : Byte) (s : State) :
    (AcceptsStatusWrite s → (exchange (encWrsr v) s).dev = startCycle (.statusWrite v) s.dev)
      ∧ (¬AcceptsStatusWrite s → (exchange (encWrsr v) s).dev = s.dev) := by
  refine exchange_gated rfl (and_congr_right' ?_)
  rw [srwdRefuses_eq_false_iff]
  exact (and_iff_right (Nat.le_refl 2)).symm

/-- Settles O16: `exchange_encWrsr_dev`. -/
theorem wrsrStartsStatusCycle : Obligations.WrsrStartsStatusCycle :=
  fun s v => ⟨_, rfl, exchange_issues _ s, exchange_encWrsr_dev v s⟩

/-- The gate of an erase frame of four bytes, as the device tests it. -/
theorem acceptsErase_iff (op : Byte) (a : Nat) (s : State) :
    AcceptsErase op a s ↔ Listens op s.dev ∧ 4 ≤ 4 ∧ s.dev.wel = true
      ∧ ¬(s.params.devEraseHonoursBp = true ∧ protectedAt a s.dev.bp = true) := by
  simp [AcceptsErase]

theorem frameAddr_of_enc24 (op : Byte) (a : Addr24) : frameAddr (op :: enc24 a) = a.toNat % addrLimit :=
  frameAddr_enc24 op a []

theorem exchange_encPe_dev (a : Addr24) (s : State) :
    (AcceptsErase 0x42#8 (a.toNat % addrLimit) s →
        (exchange (encPe a) s).dev = startCycle (.pageErase (page (a.toNat % addrLimit))) s.dev)
      ∧ (¬AcceptsErase 0x42#8 (a.toNat % addrLimit) s → (exchange (encPe a) s).dev = s.dev) := by
  rw [← frameAddr_of_enc24 0x42#8 a]
  exact exchange_gated rfl (acceptsErase_iff _ _ s)

theorem exchange_encSe_dev (a : Addr24) (s : State) :
    (AcceptsErase 0xD8#8 (a.toNat % addrLimit) s →
        (exchange (encSe a) s).dev = startCycle (.sectorErase (sector (a.toNat % addrLimit))) s.dev)
      ∧ (¬AcceptsErase 0xD8#8 (a.toNat % addrLimit) s → (exchange (encSe a) s).dev = s.dev) := by
  rw [← frameAddr_of_enc24 0xD8#8 a]
  exact exchange_gated rfl (acceptsErase_iff _ _ s)

/-- Settles O19: `exchange_encPe_dev` and `exchange_encSe_dev`. -/
theorem eraseInstructionsStartCycle : Obligations.EraseInstructionsStartCycle :=
  fun s addr => ⟨⟨_, rfl, exchange_issues _ s, exchange_encPe_dev addr s⟩,
    _, rfl, exchange_issues _ s, exchange_encSe_dev addr s⟩

theorem exchange_encCe_dev (s : State) :
    (AcceptsChipErase s → (exchange encCe s).dev = startCycle .chipErase s.dev)
      ∧ (¬AcceptsChipErase s → (exchange encCe s).dev = s.dev) := by
  refine exchange_gated rfl (and_congr_right' (and_congr_right' ?_))
  rw [not_and, Decidable.not_not]

/-- Settles O20: `exchange_encCe_dev`. -/
theorem chipEraseStartsCycle : Obligations.ChipEraseStartsCycle :=
  fun s => ⟨_, rfl, exchange_issues _ s, exchange_encCe_dev s⟩

/-! Frames the device ignores (rules R258, R260). -/

/-- Settles O21: while a cycle runs the device listens to RDSR alone. -/
theorem busyDeviceIgnoresFrames : Obligations.BusyDeviceIgnoresFrames :=
  fun _ _ _ hw hop => exchange_of_not_listens fun ⟨_, hl⟩ => hop (hl hw)

section
variable (p : Params) (wp : Bool) (c : Nat) (d : Device) {op : Byte} {tx : List Byte}

/-- The device has no meaning for an opcode outside rule R300. -/
theorem answerByOpcode_of_unknown
    (h : op ∉ [0x03#8, 0x02#8, 0x06#8, 0x04#8, 0x05#8, 0x01#8, 0x42#8, 0xD8#8, 0xC7#8, 0xAB#8, 0xB9#8]) :
    answerByOpcode p wp c d op tx = drawnReply c d tx := by
  simp only [List.mem_cons, List.not_mem_nil, or_false, not_or] at h
  simp only [answerByOpcode, h, if_false]

/-- Every meaning that needs more than the opcode checks the frame's length first. -/
theorem answerByOpcode_of_short {len : Nat} (hop : minFrameLength op = some len) (h : tx.length < len) (h1 : 1 < len)
    (hne : op ≠ 0x05#8) : answerByOpcode p wp c d op tx = drawnReply c d tx := by
  have hshort {k : Nat} {q : Prop} (hk : some k = some len) : ¬(k ≤ tx.length ∧ q) := by
    cases hk
    exact fun hc => absurd hc.1 (Nat.not_le.mpr h)
  unfold minFrameLength at hop
  split at hop
  · subst op; cases hop; exact if_neg (Nat.not_le.mpr h)
  split at hop
  · subst op; exact if_neg (hshort hop)
  split at hop
  · rename_i hor
    rw [hor.resolve_left hne]
    exact if_neg (hshort hop)
  split at hop
  · rename_i hor
    rcases hor with rfl | rfl <;> exact if_neg (hshort hop)
  split at hop
  · subst op; cases hop; exact if_neg (Nat.not_le.mpr h)
  split at hop
  · cases hop; omega
  · cases hop

end

/-- An RDSR frame of the opcode alone has no byte the status could stand in. -/
theorem reply_one (c : Nat) {named : Nat → Option Byte} (h : named 0 = none) :
    reply c 1 named = reply c 1 fun _ => none := by
  simp [reply, h]

/-- A frame that is too short for its opcode is answered with draws. -/
theorem answerByOpcode_of_too_short (p : Params) (wp : Bool) (c : Nat) (d : Device) {op : Byte} {rest : List Byte}
    {len : Nat} (hop : minFrameLength op = some len) (h : (op :: rest).length < len) :
    answerByOpcode p wp c d op (op :: rest) = drawnReply c d (op :: rest) := by
  by_cases hne : op = 0x05#8
  · subst hne
    cases hop
    have hrest : rest = [] := List.eq_nil_of_length_eq_zero (by simp only [List.length_cons] at h; omega)
    subst hrest
    exact Prod.ext rfl (reply_one c (named := fun i => if 1 ≤ i then some (statusByte d) else none) rfl)
  · exact answerByOpcode_of_short p wp c d hop h (by simp only [List.length_cons] at h; omega) hne

/-- Settles O22: an empty, unknown or short frame is answered with draws, whether the device listens to it or not. -/
theorem unknownOrShortFramesIgnored : Obligations.UnknownOrShortFramesIgnored := by
  rintro s tx (rfl | ⟨op, rest, rfl, hop⟩)
  · exact exchange_drawn rfl
  · by_cases hl : Listens op s.dev
    · refine exchange_drawn ((answer_of_listens hl).trans ?_)
      rcases hop with hunknown | ⟨len, hmin, hlen⟩
      · exact answerByOpcode_of_unknown _ _ _ _ hunknown
      · exact answerByOpcode_of_too_short _ _ _ _ hmin hlen
    · exact exchange_of_not_listens hl

end Sys2Proof.Machine
end

section
/-! PROOFS. 20_memory.md Part 2, DevComplete (rule R240); 10_state.md section 5, the protection levels (rule R114);
60_exceptions.md section 1, the result codes (rule R800). -/

namespace Sys2Proof.Machine

/-! The end of a cycle. -/

/-- DevComplete changes the device only, by the cycle's effect. -/
theorem devComplete_changes_device {s t : State} {y : Cycle} (h : takeTurn s = (.device, t))
    (hy : s.dev.pending = some y) (hin : cycleInArray y = true) :
    ∃ u, step s = .next u ∧ u.dev = cycleEffect s.params y s.dev ∧ KeepsPorts s u ∧ KeepsSequencer s u
      ∧ u.trace = s.trace ∧ u.rx = s.rx ∧ u.params = s.params ∧ u.inputs = s.inputs := by
  refine ⟨_, step_device h hy hin, ?_⟩
  obtain ⟨ts, n, rfl⟩ := takeTurn_eq h
  exact ⟨rfl, ⟨rfl, rfl, rfl⟩, ⟨rfl, rfl, rfl, rfl, rfl, rfl, rfl⟩, rfl, rfl, rfl, rfl⟩

/-- The last byte of a write cycle that is meant for a page offset: the first is number `j`, then every 256th. -/
theorem Memory.read_writePage_wrapping {m : List Host.Cell} {base off x : Nat} {d : List Byte} (hm : Memory.wf m)
    (h : base + pageSize ≤ addrLimit) (hx : base ≤ x ∧ x < base + pageSize) :
    Memory.read (Memory.writePage m base off d) x =
      let j := (x - base + 256 - off % 256) % 256
      if j < d.length then d.getD (j + 256 * ((d.length - 1 - j) / 256)) 0 else Memory.read m x := by
  simp only [pageSize, addrLimit] at h hx
  induction d generalizing m off with
  | nil => simp [Memory.writePage]
  | cons v vs ih =>
    have hoff : off % 256 < 256 := Nat.mod_lt _ (by decide)
    have hwrite := Memory.write_wf (v := v) hm (show base + off % 256 < addrLimit by simp only [addrLimit]; omega)
    simp only [Memory.writePage, pageSize, ih hwrite, List.length_cons]
    by_cases hxo : x = base + off % 256
    · have hj : (x - base + 256 - off % 256) % 256 = 0 := by omega
      have hj' : (x - base + 256 - (off + 1) % 256) % 256 = 255 := by omega
      rw [hj, hj', if_pos (Nat.succ_pos _)]
      by_cases hlen : 255 < vs.length
      · rw [if_pos hlen,
          show 0 + 256 * ((vs.length + 1 - 1 - 0) / 256) = 255 + 256 * ((vs.length - 1 - 255) / 256) + 1 by omega,
          List.getD_cons_succ]
      · rw [if_neg hlen, show 0 + 256 * ((vs.length + 1 - 1 - 0) / 256) = 0 by omega, List.getD_cons_zero, hxo,
          Memory.read_write_same _ _ hm]
    · obtain ⟨j, hj⟩ : ∃ j, (x - base + 256 - off % 256) % 256 = j + 1 := Nat.exists_eq_succ_of_ne_zero (by omega)
      have hj' : (x - base + 256 - (off + 1) % 256) % 256 = j := by omega
      rw [hj, hj', Memory.read_write_other _ hm hxo,
        show j + 1 + 256 * ((vs.length + 1 - 1 - (j + 1)) / 256) = j + 256 * ((vs.length - 1 - j) / 256) + 1 by omega,
        List.getD_cons_succ]
      simp only [Nat.add_lt_add_iff_right]

/-- The array after a write cycle at `a`, for every address. -/
theorem read_cycleArray_write (p : Params) {m : List Host.Cell} {a : Nat} (d : List Byte) (hm : Memory.wf m)
    (ha : a < addrLimit) (x : Nat) :
    Memory.read (cycleArray p m (.write a d)) x =
      let j := (x + 256 - a % 256) % 256
      if x / 256 = a / 256 ∧ j < d.length then d.getD (j + 256 * ((d.length - 1 - j) / 256)) 0
      else Memory.read m x := by
  have hbase : pageBase a = 256 * (a / 256) := by simp only [pageBase, pageOff, pageSize]; omega
  have hpage : pageBase a + pageSize ≤ addrLimit := by
    rw [hbase]
    simp only [pageSize, addrLimit] at *
    omega
  simp only [cycleArray]
  by_cases hx : x / 256 = a / 256
  · rw [Memory.read_writePage_wrapping hm hpage (by rw [hbase]; simp only [pageSize]; omega)]
    have hj : (x - pageBase a + 256 - pageOff a % 256) % 256 = (x + 256 - a % 256) % 256 := by
      rw [hbase]; simp only [pageOff, pageSize]; omega
    simp only [hj, hx, true_and]
  · rw [Memory.read_writePage_outside hm hpage (by rw [hbase]; simp only [pageSize]; omega)]
    simp only [hx, false_and, if_false]

/-- Settles O23: `read_cycleArray_write`; the rest of the device is the cycle's effect. -/
theorem devCompleteWritesPage : Obligations.DevCompleteWritesPage := by
  intro s t a d h hm hy ha
  obtain ⟨u, hu, hdev, hframe⟩ := devComplete_changes_device h hy (decide_eq_true ha)
  refine ⟨u, hu, ?_⟩
  unfold KeepsProtection
  rw [hdev]
  exact ⟨rfl, rfl, rfl, ⟨rfl, rfl, rfl⟩, rfl, read_cycleArray_write s.params d hm ha, hframe⟩

/-- What a cycle does that erases the bytes from `base` on. -/
def ErasesAt (y : Cycle) (base n : Nat) : Prop :=
  cycleInArray y = true ∧ (∀ p, clearsWel p y = p.devWelAutoclear) ∧ (∀ d p, (cycleEffect p y d).bp = d.bp)
    ∧ (∀ d p, (cycleEffect p y d).srwd = d.srwd) ∧ ∀ p m, cycleArray p m y = Memory.fill m base n p.erasedByte

/-- The three erase cycles and their bytes. -/
theorem erasesAt_of_bounds {y : Cycle} {base n : Nat}
    (h : (∃ p, p < 512 ∧ y = .pageErase p ∧ base = p * 256 ∧ n = 256)
      ∨ (∃ k, k < 4 ∧ y = .sectorErase k ∧ base = k * 32768 ∧ n = 32768)
      ∨ (y = .chipErase ∧ base = 0 ∧ n = 0x20000)) : ErasesAt y base n := by
  rcases h with ⟨k, hk, rfl, rfl, rfl⟩ | ⟨k, hk, rfl, rfl, rfl⟩ | ⟨rfl, rfl, rfl⟩
  · exact ⟨decide_eq_true hk, fun _ => rfl, fun _ _ => rfl, fun _ _ => rfl, fun _ _ => rfl⟩
  · exact ⟨decide_eq_true hk, fun _ => rfl, fun _ _ => rfl, fun _ _ => rfl, fun _ _ => rfl⟩
  · exact ⟨rfl, fun _ => rfl, fun _ _ => rfl, fun _ _ => rfl, fun _ _ => rfl⟩

/-- Settles O24: the array is filled, which `Memory.read_fill` reads back. -/
theorem devCompleteErases : Obligations.DevCompleteErases := by
  intro s t y base n h hy hbounds
  obtain ⟨hin, hwel, hbp, hsrwd, harr⟩ := erasesAt_of_bounds hbounds
  obtain ⟨u, hu, hdev, hframe⟩ := devComplete_changes_device h hy hin
  refine ⟨u, hu, ?_⟩
  unfold KeepsProtection
  rw [hdev]
  refine ⟨rfl, rfl, ?_, ⟨hbp _ _, hsrwd _ _, rfl⟩, rfl, fun x => ?_, hframe⟩
  · rw [← hwel]; rfl
  · rw [← Memory.read_fill, ← harr]; rfl

/-- Settles O25: the fields are those of `cycleEffect` at a status write. -/
theorem devCompleteWritesStatus : Obligations.DevCompleteWritesStatus := by
  intro s t v h hy
  obtain ⟨u, hu, hdev, hframe⟩ := devComplete_changes_device h hy rfl
  refine ⟨u, hu, ?_⟩
  unfold KeepsArray
  rw [hdev]
  exact ⟨rfl, rfl, rfl, rfl, rfl, rfl, rfl, fun _ => rfl, hframe⟩

/-! The protection levels. -/

theorem protectedAt_iff (a : Nat) (bp : BitVec 2) :
    protectedAt a bp = true ↔ bp ≠ 0 ∧ 4 - protectedSectors bp ≤ a / 32768 := by
  simp [protectedAt, sector, sectorSize, numSectors]

theorem protectedSectors_mono {bp bp' : BitVec 2} (h : bp.toNat ≤ bp'.toNat) :
    protectedSectors bp ≤ protectedSectors bp' := by
  revert bp bp'
  decide

/-- Settles O27: a level protects the sectors from `4 - protectedSectors` up. -/
theorem protectionLevelsAreTopSectors : Obligations.ProtectionLevelsAreTopSectors := by
  refine ⟨fun a ha => ⟨rfl, ?_, ?_, ?_⟩, fun a b bp hab => ?_, fun a bp bp' hbp => ?_⟩
  · rw [protectedAt_iff, and_iff_right (by decide), show 4 - protectedSectors 1 = 3 from rfl]; omega
  · rw [protectedAt_iff, and_iff_right (by decide), show 4 - protectedSectors 2 = 2 from rfl]; omega
  · rw [protectedAt_iff, and_iff_right (by decide)]
    exact Nat.zero_le _
  · rw [protectedAt_iff, protectedAt_iff]
    exact fun ⟨h0, hsec⟩ => ⟨h0, hsec.trans (Nat.div_le_div_right hab)⟩
  · rw [protectedAt_iff, protectedAt_iff]
    have hmono := protectedSectors_mono hbp
    rintro ⟨h0, hsec⟩
    refine ⟨?_, by omega⟩
    rintro rfl
    exact h0 (BitVec.eq_of_toNat_eq (Nat.le_zero.mp hbp))

/-! The result codes. -/

/-- The numbers follow the order of the table. -/
theorem resultNumber_toNat (c : ResultCode) : (resultNumber c).toNat = c.ctorIdx := by
  cases c <;> rfl

theorem resultNumber_injective {c c' : ResultCode} (h : resultNumber c = resultNumber c') : c = c' := by
  rw [← ResultCode.ofNat_ctorIdx c, ← resultNumber_toNat, h, resultNumber_toNat, ResultCode.ofNat_ctorIdx]

theorem resultNumber_ne_seven (c : ResultCode) : resultNumber c ≠ 7 := by
  cases c <;> decide

theorem exists_resultNumber_eq {v : BitVec 3} (h : v ≠ 7) : ∃ c, resultNumber c = v := by
  have hv : v = 0 ∨ v = 1 ∨ v = 2 ∨ v = 3 ∨ v = 4 ∨ v = 5 ∨ v = 6 := by revert v; decide
  rcases hv with rfl | rfl | rfl | rfl | rfl | rfl | rfl
  exacts [⟨.ok, rfl⟩, ⟨.outOfRange, rfl⟩, ⟨.pageBoundary, rfl⟩, ⟨.initialization, rfl⟩, ⟨.deviceTimeout, rfl⟩,
    ⟨.notReady, rfl⟩, ⟨.illegalCommand, rfl⟩]

/-- Settles O57: the numbering is injective and misses exactly 7. -/
theorem resultCodesAreNumbered : Obligations.ResultCodesAreNumbered := by
  refine ⟨⟨rfl, rfl, rfl, rfl, rfl, rfl, rfl⟩, fun v => ⟨fun hv => ?_, ?_⟩⟩
  · obtain ⟨c, rfl⟩ := exists_resultNumber_eq hv
    exact ⟨c, rfl, fun _ h => resultNumber_injective h⟩
  · rintro ⟨c, rfl, -⟩
    exact resultNumber_ne_seven c

end Sys2Proof.Machine
end

section
/-! PROOFS. 41_init.md to 44_erase_power.md: the commands of one frame, and those that send a frame and then poll. -/

namespace Sys2Proof.Machine

/-- A transaction keeps everything outside the sequencer and the device's volatile state. -/
theorem exchange_keepsRest (tx : List Byte) (s : State) : KeepsRest s (exchange tx s) :=
  ⟨⟨rfl, rfl, rfl⟩, ⟨rfl, rfl, rfl⟩, rfl, exchange_keepsArray tx s, exchange_keepsProtection tx s⟩

theorem not_listens_of_wip {op : Byte} {d : Device} (hw : d.wip = true) (hop : op ≠ 0x05#8) : ¬Listens op d :=
  fun ⟨_, hl⟩ => hop (hl hw)

/-- The identity frame (rule R248): where no cycle runs it answers the identity and wakes the device, else nothing. -/
theorem exchange_encRdid (p : Params) (s : State) :
    (s.dev.wip = false →
        rxByte 4 (exchange (encRdid p) s) = s.params.devId ∧ (exchange (encRdid p) s).dev = { s.dev with dpd := false })
      ∧ (s.dev.wip = true → (exchange (encRdid p) s).dev = s.dev) :=
  ⟨fun hw => exchange_rdid hw (Nat.le_refl 4),
    fun hw => (exchange_of_not_listens (not_listens_of_wip hw (by decide))).1⟩

/-! OUT_OF_RANGE (rules R500, R502, R700). -/

theorem inRange_eq_false {a : Int} {n : Nat} (h : a < 0 ∨ a + n > 0x20000) : inRange a n = false := by
  refine eq_false_of_ne_true fun hin => ?_
  have hbounds := (inRange_eq_true_iff a n).mp hin
  omega

theorem inRange_eq_true {a : Int} {n : Nat} (h0 : 0 ≤ a) (h1 : a + n ≤ 0x20000) : inRange a n = true :=
  (inRange_eq_true_iff a n).mpr ⟨h0, h1⟩

section
variable {s : State} (hst : s.st = .ready)
include hst

/-- The erase's check, where ERASE_RANGE_CHECK. -/
theorem whenReady_eraseAt_of_outOfRange {frame : Addr24 → List Byte} {addr : Word32}
    (hcheck : s.params.eraseRangeCheck = true) (h : inRange (intAddr addr) 1 = false) :
    whenReady (eraseAt frame addr) s = raise .outOfRange s := by
  rw [whenReady_ready hst, eraseAt, if_pos ⟨hcheck, h⟩]

theorem exec_cmdRead_of_outOfRange {addr len : Word32} (h : inRange (intAddr addr) len.toNat = false) :
    exec (.cmdRead addr len) s = .next (raise .outOfRange s) := by
  simp only [exec, execCmdRead, whenReady_ready hst, h, Bool.false_eq_true, if_false]

theorem exec_cmdWrite_of_outOfRange {addr : Word32} {data : List Byte}
    (h : inRange (intAddr addr) data.length = false) :
    exec (.cmdWrite addr data) s = .next (raise .outOfRange s) := by
  simp only [exec, execCmdWrite, whenReady_ready hst, h, Bool.false_eq_true, if_false]

end

/-- Settles O30: each command checks its range before anything else and raises. -/
theorem outOfRangeIssuesNothing : Obligations.OutOfRangeIssuesNothing :=
  fun _ _ _ _ hst =>
    ⟨fun h => exec_ends_quietly (exec_cmdRead_of_outOfRange hst (inRange_eq_false h)),
      fun h => exec_ends_quietly (exec_cmdWrite_of_outOfRange hst (inRange_eq_false h)),
      fun hcheck h =>
        ⟨exec_ends_quietly (congrArg _ (whenReady_eraseAt_of_outOfRange hst hcheck (inRange_eq_false h))),
          exec_ends_quietly (congrArg _ (whenReady_eraseAt_of_outOfRange hst hcheck (inRange_eq_false h)))⟩⟩

/-! INIT (rules R450, R455, R457). -/

@[simp] theorem driveLinesInactive_cmd (s : State) : (driveLinesInactive s).cmd = s.cmd := by
  unfold driveLinesInactive; split <;> rfl
@[simp] theorem driveLinesInactive_params (s : State) : (driveLinesInactive s).params = s.params := by
  unfold driveLinesInactive; split <;> rfl
@[simp] theorem driveLinesInactive_inputs (s : State) : (driveLinesInactive s).inputs = s.inputs := by
  unfold driveLinesInactive; split <;> rfl
@[simp] theorem driveLinesInactive_sched (s : State) : (driveLinesInactive s).sched = s.sched := by
  unfold driveLinesInactive; split <;> rfl
@[simp] theorem driveLinesInactive_rspData (s : State) : (driveLinesInactive s).rspData = s.rspData := by
  unfold driveLinesInactive; split <;> rfl

theorem driveLinesInactive_of_lines {s : State} (h : s.params.hasControlLines = true) :
    driveLinesInactive s = { s with holdN := true, wpN := true } := if_pos h

theorem driveLinesInactive_of_no_lines {s : State} (h : s.params.hasControlLines = false) : driveLinesInactive s = s :=
  if_neg (by simp [h])

theorem checkIdentity_of_match {s : State} (h : rxByte 4 s = s.params.expectedSignature) :
    checkIdentity s = finishByte (rxByte 4 s) { s with st := .ready } := if_pos h

theorem checkIdentity_of_mismatch {s : State} (h : rxByte 4 s ≠ s.params.expectedSignature) :
    checkIdentity s = raise .initialization { s with st := .uninit } := if_neg h

/-- The identity check writes ST and ends the command; it leaves the port, the device and the environment. -/
theorem checkIdentity_keeps (s : State) :
    (checkIdentity s).rx = s.rx ∧ (checkIdentity s).trace = s.trace ∧ (checkIdentity s).dev = s.dev
      ∧ (checkIdentity s).holdN = s.holdN ∧ (checkIdentity s).wpN = s.wpN ∧ (checkIdentity s).cmd = s.cmd
      ∧ KeepsEnvironment s (checkIdentity s) := by
  unfold checkIdentity
  split <;> exact ⟨rfl, rfl, rfl, rfl, rfl, rfl, rfl, rfl, rfl⟩

/-- Settles O31: one RDID after the lines are driven, then the identity check of its byte 4. -/
theorem initChecksIdentity : Obligations.InitChecksIdentity := by
  intro s
  refine ⟨_, rfl, ?_⟩
  generalize hx : exchange (encRdid s.params) (driveLinesInactive s) = x
  obtain ⟨hrx, htr, hdev, hhold, hwp, hcmd, hpar, hin, hsched⟩ := checkIdentity_keeps x
  obtain ⟨hidle, hwip⟩ := exchange_encRdid s.params (driveLinesInactive s)
  have hparams : x.params = s.params := by rw [← hx]; simp
  have hissue : Issues (encRdid s.params) s x := by
    rw [← hx, Issues, ← driveLinesInactive_trace s]
    exact exchange_issues _ _
  rw [driveLinesInactive_dev, hx] at hidle hwip
  rw [driveLinesInactive_params] at hidle
  unfold Issues KeepsEnvironment
  rw [hrx, htr, hdev, hhold, hwp, hcmd, hpar, hin, hsched]
  refine ⟨hissue, fun h => ?_, fun h => ?_, fun h => ?_, fun h => ?_, hidle, hwip, ?_, hparams, ?_, ?_⟩
  · rw [checkIdentity_of_match (hparams ▸ h)]
    exact ⟨⟨rfl, rfl, rfl⟩, rfl, rfl, by rw [← hx]; simp⟩
  · rw [checkIdentity_of_mismatch (hparams ▸ h)]
    exact ⟨⟨rfl, rfl, rfl⟩, rfl⟩
  · rw [← hx, driveLinesInactive_of_lines h]
    exact ⟨rfl, rfl⟩
  · rw [← hx, driveLinesInactive_of_no_lines h]
    exact ⟨rfl, rfl⟩
  · rw [← hx]; simp
  · rw [← hx]; simp
  · rw [← hx]; simp

/-! READ (rule R510). -/

/-- A READ frame changes nothing, whether the device listens or not. -/
theorem exchange_encRead_dev (p : Params) (s : State) (a : Addr24) (n : Nat) :
    (exchange (encRead p a n) s).dev = s.dev := by
  by_cases hl : Listens 0x03#8 s.dev
  · exact (exchange_encRead p a n hl).1
  · exact (exchange_of_not_listens hl).1

theorem exec_cmdRead_of_inRange {s : State} {addr len : Word32} (hst : s.st = .ready)
    (h : inRange (intAddr addr) len.toNat = true) :
    exec (.cmdRead addr len) s = .next (readArray addr len.toNat s) := by
  simp only [exec, execCmdRead, whenReady_ready hst, h, if_true]

/-- In range no address wraps, so a device that listens answers the bytes from the address on. -/
theorem exchange_encRead_inRange {s : State} {addr : Word32} {n : Nat} (h : addr.toNat + n ≤ addrLimit)
    (hl : Listens 0x03#8 s.dev) :
    (exchange (encRead s.params (fieldAddr addr) n) s).rx.drop 4
      = (List.range n).map fun j => Memory.read s.dev.arr (addr.toNat + j) := by
  rw [(exchange_encRead s.params (fieldAddr addr) n hl).2, fieldAddr_toNat (by omega)]
  refine List.map_congr_left fun j hj => ?_
  rw [Nat.mod_eq_of_lt]
  have := List.mem_range.mp hj
  omega

/-- Settles O32: the command is `readArray`, one READ frame whose answer after four bytes is the result. -/
theorem readReturnsRequestedBytes : Obligations.ReadReturnsRequestedBytes := by
  intro s addr len hst h0 h1
  have hin := inRange_eq_true h0 h1
  have hissue := exchange_issues (encRead s.params (fieldAddr addr) len.toNat) s
  refine ⟨_, exec_cmdRead_of_inRange hst hin, hissue, ⟨rfl, rfl, rfl⟩, rfl, ?_, rfl, exchange_encRead_dev _ s _ _,
    exchange_encRead_inRange (toNat_add_le_of_inRange hin), exchange_keepsRest _ s⟩
  change ((exchange (encRead s.params (fieldAddr addr) len.toNat) s).rx.drop 4).length = len.toNat
  rw [List.length_drop, hissue.1, encRead_length, Nat.add_sub_cancel_left]

/-! The getters (rules R600 to R630). -/

/-- A Bool of a byte is that one bit of it. -/
theorem boolByte_getLsbD (v : Byte) (i : Nat) : boolByte (v.getLsbD i) = (v.extractLsb' i 1).setWidth 8 := by
  unfold boolByte
  congr 1
  apply BitVec.eq_of_getLsbD_eq
  intro j hj
  obtain rfl : j = 0 := by omega
  simp

/-- A getter: one RDSR, its field of the byte read, and nothing else of the response. -/
theorem getField_spec (field : Byte → Byte) (s : State) :
    Issues (encRdsr s.params) s (getField field s) ∧ Ends .ok (getField field s)
      ∧ (getField field s).rspByte = field ((getField field s).rx.getD 1 0)
      ∧ (getField field s).rspData = s.rspData ∧ (getField field s).dev = s.dev ∧ KeepsRest s (getField field s) :=
  ⟨exchange_issues _ s, ⟨rfl, rfl, rfl⟩, rfl, rfl, exchange_rdsr_dev _ s, exchange_keepsRest _ s⟩

/-- Settles O37: every getter is `getField` of its field. -/
theorem gettersReturnFieldOfByteRead : Obligations.GettersReturnFieldOfByteRead := by
  intro s i field hst hmem
  suffices h : exec i s = .next (getField field s) from ⟨_, h, getField_spec field s⟩
  simp only [List.mem_cons, List.not_mem_nil, or_false, Prod.mk.injEq] at hmem
  rcases hmem with ⟨rfl, rfl⟩ | ⟨rfl, rfl⟩ | ⟨rfl, rfl⟩ | ⟨rfl, rfl⟩ | ⟨rfl, rfl⟩
  · exact congrArg _ (whenReady_ready hst)
  · exact congrArg _ (whenReady_ready hst)
  all_goals
    simp only [← boolByte_getLsbD]
    exact congrArg _ (whenReady_ready hst)

/-- Out of deep power-down a getter returns its field of the device's status byte. -/
theorem whenReady_getField {s : State} (hst : s.st = .ready) (hd : s.dev.dpd = false) (field : Byte → Byte) :
    (whenReady (getField field) s).rspByte = field (statusByte s.dev)
      ∧ (whenReady (getField field) s).rspCode = .ok := by
  rw [whenReady_ready hst]
  refine ⟨?_, rfl⟩
  rw [← exchange_rdsr_byte (p := s.params) hd]
  rfl

theorem boolByte_eq_ite (b : Bool) : boolByte b = if b then 1 else 0 := by
  cases b <;> rfl

/-- Settles O38: the fields of `statusByte`. -/
theorem gettersReturnDeviceFields : Obligations.GettersReturnDeviceFields := by
  intro s hst hd
  refine ⟨⟨_, rfl, whenReady_getField hst hd id⟩, ?_, ?_, ?_, ?_⟩
  · obtain ⟨hbyte, hcode⟩ := whenReady_getField hst hd bpOf
    refine ⟨_, rfl, ?_, hcode⟩
    rw [hbyte, bpOf_statusByte, BitVec.toNat_setWidth, Nat.mod_eq_of_lt (s.dev.bp.isLt.trans (by decide))]
  · obtain ⟨hbyte, hcode⟩ := whenReady_getField hst hd fun v => boolByte (srwdOf v)
    exact ⟨_, rfl, by rw [hbyte, srwdOf_statusByte, boolByte_eq_ite], hcode⟩
  · obtain ⟨hbyte, hcode⟩ := whenReady_getField hst hd fun v => boolByte (wipOf v)
    exact ⟨_, rfl, by rw [hbyte, wipOf_statusByte, boolByte_eq_ite], hcode⟩
  · obtain ⟨hbyte, hcode⟩ := whenReady_getField hst hd fun v => boolByte (welOf v)
    exact ⟨_, rfl, by rw [hbyte, welOf_statusByte, boolByte_eq_ite], hcode⟩

/-! A frame and then the final poll (rules R612, R700 to R704). -/

/-- A command that issues a frame with a gated effect on the device and starts the final poll. -/
theorem exec_sends_then_polls {i : Instr} {tx : List Byte} {s : State} {accepted : Prop} {d : Device}
    (h : exec i s = .next (startPoll .done (exchange tx s)))
    (hdev : (accepted → (exchange tx s).dev = d) ∧ (¬accepted → (exchange tx s).dev = s.dev)) :
    ∃ t, exec i s = .next t ∧ Issues tx s t ∧ StartsPoll .done t ∧ (accepted → t.dev = d) ∧ (¬accepted → t.dev = s.dev)
      ∧ t.seq = { s.seq with polls := 0 } ∧ t.rspCode = s.rspCode ∧ KeepsResponse s t ∧ KeepsRest s t :=
  ⟨_, h, exchange_issues tx s, ⟨⟨rfl, rfl⟩, rfl⟩, hdev.1, hdev.2, rfl, rfl, ⟨rfl, rfl⟩, exchange_keepsRest tx s⟩

/-- Settles O39: WRITE_STATUS issues the WRSR of its operand. -/
theorem writeStatusSendsByteThenPolls : Obligations.WriteStatusSendsByteThenPolls :=
  fun s v hst => exec_sends_then_polls (congrArg _ (whenReady_ready hst)) (exchange_encWrsr_dev v s)

theorem whenReady_eraseAt {s : State} {frame : Addr24 → List Byte} {addr : Word32} (hst : s.st = .ready)
    (h : s.params.eraseRangeCheck = true → inRange (intAddr addr) 1 = true) :
    whenReady (eraseAt frame addr) s = startPoll .done (exchange (frame (fieldAddr addr)) s) := by
  rw [whenReady_ready hst, eraseAt, if_neg]
  exact fun ⟨hcheck, hout⟩ => Bool.false_ne_true (hout.symm.trans (h hcheck))

/-- The device takes the low 24 bits of an address modulo the array's size, as the address itself (rule R700). -/
theorem fieldAddr_mod_addrLimit (addr : Word32) : (fieldAddr addr).toNat % addrLimit = addr.toNat % 0x20000 := by
  rw [BitVec.toNat_setWidth]
  exact Nat.mod_mod_of_dvd _ (by decide)

/-- Settles O43: the three erases issue their frame, which the device's gates of R252 to R256 answer. -/
theorem eraseCommandsSendThenPoll : Obligations.EraseCommandsSendThenPoll := by
  intro s addr hst hcheck
  have hin : s.params.eraseRangeCheck = true → inRange (intAddr addr) 1 = true :=
    fun hc => (inRange_eq_true_iff _ _).mpr (hcheck hc)
  rw [← fieldAddr_mod_addrLimit]
  exact ⟨exec_sends_then_polls (congrArg _ (whenReady_eraseAt hst hin)) (exchange_encPe_dev _ s),
    exec_sends_then_polls (congrArg _ (whenReady_eraseAt hst hin)) (exchange_encSe_dev _ s),
    exec_sends_then_polls (congrArg _ (whenReady_ready hst)) (exchange_encCe_dev s)⟩

/-! The setters of a field (rules R620, R626). -/

/-- Below `2 ^ i` the bits from `i` up are all zero. -/
theorem extractLsb'_eq_zero_of_lt {arg : Byte} {i : Nat} (n : Nat) (h : arg.toNat < 2 ^ i) :
    arg.extractLsb' i n = 0 := by
  apply BitVec.eq_of_toNat_eq
  rw [BitVec.extractLsb'_toNat, Nat.shiftRight_eq_div_pow, Nat.div_eq_of_lt h]
  simp

theorem levelArg_of_lt {arg : Byte} (h : arg.toNat < 4) :
    levelArg arg = some (arg.extractLsb' 0 2) ∧ (arg.extractLsb' 0 2).toNat = arg.toNat := by
  refine ⟨if_pos (extractLsb'_eq_zero_of_lt 6 h), ?_⟩
  rw [BitVec.extractLsb'_toNat, Nat.shiftRight_zero, Nat.mod_eq_of_lt h]

theorem boolArg_of_lt {arg : Byte} (h : arg.toNat < 2) :
    boolArg arg = some (arg.getLsbD 0) ∧ (arg.getLsbD 0).toNat = arg.toNat := by
  refine ⟨if_pos (extractLsb'_eq_zero_of_lt (i := 1) 7 h), ?_⟩
  have h01 : arg.toNat = 0 ∨ arg.toNat = 1 := by omega
  unfold BitVec.getLsbD
  rcases h01 with h0 | h0 <;> rw [h0] <;> rfl

/-- The bits of the byte SET_BP writes back. -/
theorem getLsbD_withBp (s : Byte) (v : BitVec 2) (b : Nat) :
    (withBp s v).getLsbD b = if b = 2 ∨ b = 3 then v.getLsbD (b - 2) else s.getLsbD b := by
  by_cases hb : b < 8
  · interval_cases b <;> simp [withBp]
  · rw [BitVec.getLsbD_of_ge _ _ (Nat.not_lt.mp hb), if_neg (by omega), BitVec.getLsbD_of_ge _ _ (Nat.not_lt.mp hb)]

/-- The bits of the byte SET_SRWD writes back. -/
theorem getLsbD_withSrwd (s : Byte) (v : Bool) (b : Nat) :
    (withSrwd s v).getLsbD b = if b = 7 then v else s.getLsbD b := by
  by_cases hb : b < 8
  · interval_cases b <;> cases v <;> simp [withSrwd, boolByte]
  · rw [BitVec.getLsbD_of_ge _ _ (Nat.not_lt.mp hb), if_neg (by omega), BitVec.getLsbD_of_ge _ _ (Nat.not_lt.mp hb)]

theorem extractLsb'_withBp (s : Byte) (v : BitVec 2) : (withBp s v).extractLsb' 2 2 = v := by
  apply BitVec.eq_of_getLsbD_eq
  intro i hi
  rw [BitVec.getLsbD_extractLsb', getLsbD_withBp, if_pos (by omega), Nat.add_sub_cancel_left, decide_eq_true hi,
    Bool.true_and]

theorem extractLsb'_withSrwd (s : Byte) (v : Bool) : (withSrwd s v).extractLsb' 7 1 = BitVec.ofBool v := by
  apply BitVec.eq_of_getLsbD_eq
  intro i hi
  obtain rfl : i = 0 := by omega
  rw [BitVec.getLsbD_extractLsb', getLsbD_withSrwd, if_pos rfl]
  simp

/-- A setter: one RDSR, its byte in SR, and the WRSR of the changed byte next. -/
theorem setField_spec (change : Byte → Byte) (s : State) :
    Issues (encRdsr s.params) s (setField change s)
      ∧ (setField change s).seq = { s.seq with sr := (setField change s).rx.getD 1 0 }
      ∧ StandsBefore [0x01#8, change (setField change s).seq.sr] .thenPoll (setField change s)
      ∧ (setField change s).dev = s.dev :=
  ⟨exchange_issues _ s, rfl, ⟨rfl, rfl⟩, exchange_rdsr_dev _ s⟩

theorem setField_keeps (change : Byte → Byte) (s : State) :
    (setField change s).rspCode = s.rspCode ∧ KeepsResponse s (setField change s) ∧ KeepsRest s (setField change s) :=
  ⟨rfl, ⟨rfl, rfl⟩, exchange_keepsRest _ s⟩

theorem exec_cmdSetBp {s : State} {arg : Byte} (hst : s.st = .ready) (h : arg.toNat < 4) :
    exec (.cmdSetBp arg) s = .next (setField (fun sr => withBp sr (arg.extractLsb' 0 2)) s) := by
  simp only [exec, execCmdSetBp, whenReady_ready hst, (levelArg_of_lt h).1]

theorem exec_cmdSetSrwd {s : State} {arg : Byte} (hst : s.st = .ready) (h : arg.toNat < 2) :
    exec (.cmdSetSrwd arg) s = .next (setField (fun sr => withSrwd sr (arg.getLsbD 0)) s) := by
  simp only [exec, execCmdSetSrwd, whenReady_ready hst, (boolArg_of_lt h).1]

/-- Settles O40: both setters are `setField`, with the bits of `withBp` and `withSrwd`. -/
theorem fieldSettersReadModifyWrite : Obligations.FieldSettersReadModifyWrite := by
  refine fun s arg hst => ⟨fun h => ?_, fun h => ?_⟩
  · obtain ⟨hissue, hseq, hstands, hdev⟩ := setField_spec (fun sr => withBp sr (arg.extractLsb' 0 2)) s
    refine ⟨_, _, exec_cmdSetBp hst h, hissue, hseq, hstands, hdev, ?_, fun b h2 h3 => ?_, setField_keeps _ s⟩
    · rw [extractLsb'_withBp, (levelArg_of_lt h).2]
    · rw [getLsbD_withBp, if_neg (by omega)]
  · obtain ⟨hissue, hseq, hstands, hdev⟩ := setField_spec (fun sr => withSrwd sr (arg.getLsbD 0)) s
    refine ⟨_, _, exec_cmdSetSrwd hst h, hissue, hseq, hstands, hdev, ?_, fun b h7 => ?_, setField_keeps _ s⟩
    · rw [extractLsb'_withSrwd, BitVec.toNat_ofBool, (boolArg_of_lt h).2]
    · rw [getLsbD_withSrwd, if_neg h7]

/-- Settles O41: the frame decodes to its WRSR, and the command goes on with the final poll. -/
theorem setterWritesBackThenPolls : Obligations.SetterWritesBackThenPolls := by
  intro s t w h hp
  refine ⟨_, step_frame h hp (decodeFrame_encWrsr w), ?_⟩
  obtain ⟨ts, n, rfl⟩ := takeTurn_eq h
  obtain ⟨haccept, hrefuse⟩ := exchange_encWrsr_dev w { s with sched := ts, fresh := n }
  exact ⟨resume_issues (encWrsr w) .thenPoll _, ⟨⟨rfl, rfl⟩, rfl⟩, haccept, hrefuse, rfl, ⟨rfl, rfl, rfl⟩, rfl, rfl,
    ⟨rfl, rfl⟩, exchange_keepsArray _ _, exchange_keepsProtection _ _⟩

/-! Commands of one frame without a poll (rules R632, R710, R712). -/

/-- A command that is one frame and OK, whose effect on the device needs the device to listen. -/
theorem exec_sends_and_ends {i : Instr} {op : Byte} {rest : List Byte} {s : State} {d : Device}
    (h : exec i s = .next (finish (exchange (op :: rest) s)))
    (hdev : Listens op s.dev → (exchange (op :: rest) s).dev = d) :
    ∃ t, exec i s = .next t ∧ Issues (op :: rest) s t ∧ Ends .ok t ∧ KeepsResponse s t ∧ KeepsRest s t
      ∧ (Listens op s.dev → t.dev = d) ∧ (¬Listens op s.dev → t.dev = s.dev) :=
  ⟨_, h, exchange_issues _ s, ⟨rfl, rfl, rfl⟩, ⟨rfl, rfl⟩, exchange_keepsRest _ s, hdev,
    fun hl => (exchange_of_not_listens hl).1⟩

/-- Settles O42: the operand 1 selects WREN, 0 WRDI. -/
theorem setWelIssuesOneLatchInstruction : Obligations.SetWelIssuesOneLatchInstruction :=
  fun _ hst => ⟨exec_sends_and_ends (congrArg _ (whenReady_ready hst)) (exchange_wren_dev []),
    exec_sends_and_ends (congrArg _ (whenReady_ready hst)) (exchange_wrdi_dev [])⟩

theorem exec_cmdWake {s : State} (hst : s.st = .ready) :
    exec .cmdWake s = .next (finishByte (rxByte 4 (exchange (encRdid s.params) s)) (exchange (encRdid s.params) s)) :=
  congrArg Host.Outcome.next (whenReady_ready hst)

/-- Settles O44: DPD is one frame and OK; WAKE is RDID, whose byte 4 is the result. -/
theorem powerCommandsIssueOneFrame : Obligations.PowerCommandsIssueOneFrame := by
  refine fun s hst => ⟨exec_sends_and_ends (congrArg _ (whenReady_ready hst)) (exchange_dpd_dev []), ?_⟩
  obtain ⟨hidle, hwip⟩ := exchange_encRdid s.params s
  exact ⟨_, exec_cmdWake hst, exchange_issues _ s, ⟨rfl, rfl, rfl⟩, rfl, rfl, exchange_keepsRest _ s,
    hidle, hwip⟩

end Sys2Proof.Machine
end

section
/-! PROOFS. 42_read_write.md section 3 and 43_status.md section 5: a poll's reading, the step of a sub-write, and WRITE's
first step. -/

namespace Sys2Proof.Machine

/-! A poll's reading (rules R640, R642). -/

/-- While the command goes on, a reading writes PHASE and POLLS only. -/
theorem pollAnswer_running {e : PollEnd} {s : State} (h : (pollAnswer e s).phase ≠ .idle) :
    ∃ ph k, pollAnswer e s = { s with phase := ph, busy := true, seq := { s.seq with polls := k } } := by
  cases hwip : wipOf (rxByte 1 s) with
  | false =>
    rw [pollAnswer_of_not_wip hwip] at h ⊢
    cases e
    case subWrite => exact ⟨_, s.seq.polls, rfl⟩
    case done => exact absurd rfl h
  | true =>
    rw [pollAnswer_of_wip hwip] at h ⊢
    cases hlimit : s.params.pollLimit with
    | none => exact ⟨_, s.seq.polls, pollBusy_of_no_limit hlimit⟩
    | some l =>
      by_cases hl : l ≤ s.seq.polls + 1
      · rw [pollBusy_of_limit hlimit hl] at h
        exact absurd rfl h
      · exact ⟨_, s.seq.polls + 1, pollBusy_of_below hlimit (Nat.not_le.mp hl)⟩

/-- A reading with WIP = 0 ends the poll. -/
theorem pollAnswer_not_wip_spec {s : State} (e : PollEnd) (h : wipOf (rxByte 1 s) = false) :
    (e = .done → Ends .ok (pollAnswer e s))
      ∧ (e = .subWrite → StandsBefore (chunkFrame s) .subWrite (pollAnswer e s) ∧ (pollAnswer e s).seq = s.seq) := by
  rw [pollAnswer_of_not_wip h]
  constructor
  · rintro rfl; exact ⟨rfl, rfl, rfl⟩
  · rintro rfl; exact ⟨⟨rfl, rfl⟩, rfl⟩

/-- A reading with WIP = 1 sleeps, counted against a limit, or ends at it. -/
theorem pollAnswer_wip_spec {s : State} (e : PollEnd) (h : wipOf (rxByte 1 s) = true) :
    (s.params.pollLimit = none →
        (pollAnswer e s).phase = .sleep e ∧ (pollAnswer e s).busy = true ∧ (pollAnswer e s).seq = s.seq)
      ∧ (∀ l, s.params.pollLimit = some l → s.seq.polls + 1 < l →
        (pollAnswer e s).phase = .sleep e ∧ (pollAnswer e s).busy = true
          ∧ (pollAnswer e s).seq = { s.seq with polls := s.seq.polls + 1 })
      ∧ (∀ l, s.params.pollLimit = some l → l ≤ s.seq.polls + 1 → Ends .deviceTimeout (pollAnswer e s)) := by
  rw [pollAnswer_of_wip h]
  refine ⟨fun hlimit => ?_, fun l hlimit hl => ?_, fun l hlimit hl => ?_⟩
  · rw [pollBusy_of_no_limit hlimit]; exact ⟨rfl, rfl, rfl⟩
  · rw [pollBusy_of_below hlimit hl]; exact ⟨rfl, rfl, rfl⟩
  · rw [pollBusy_of_limit hlimit hl]; exact ⟨rfl, rfl, rfl⟩

theorem spiFrame_spiRdsr (p : Params) : spiFrame p .spiRdsr = encRdsr p := rfl

theorem spiFrame_spiWrite (p : Params) (a : Addr24) (d : List Byte) : spiFrame p (.spiWrite a d) = encWrite a d := rfl

/-- The step at a poll's RDSR. -/
theorem step_poll {s t : State} {e : PollEnd} (h : takeTurn s = (.block, t))
    (hp : t.phase = .xfer (encRdsr t.params) (.poll e)) :
    step s = .next (resume (.poll e) (exchange (encRdsr t.params) t)) := by
  rw [step_frame h hp (decodeFrame_encRdsr _), spiFrame_spiRdsr]

/-- Settles O35: `pollAnswer_not_wip_spec` and `pollAnswer_wip_spec`, on the transaction of the poll's RDSR. -/
theorem pollTestsBitZero : Obligations.PollTestsBitZero := by
  intro s t e h hp
  refine ⟨_, step_poll h hp, ?_⟩
  obtain ⟨ts, n, rfl⟩ := takeTurn_eq h
  rw [resume_rx, resume_dev, exchange_rdsr_dev, resume_st]
  refine ⟨resume_issues _ _ _, rfl, pollAnswer_not_wip_spec e, pollAnswer_wip_spec e, fun hrun => ?_,
    ⟨resume_cmd _ _, resume_holdN _ _, resume_wpN _ _⟩, rfl⟩
  obtain ⟨ph, k, hk⟩ := pollAnswer_running (e := e) hrun
  simp only [resume, hk]
  exact ⟨rfl, rfl, rfl⟩

/-! A sub-write (rule R520). -/

/-- The step at a sub-write's frame. -/
theorem step_subWrite {s t : State} (h : takeTurn s = (.block, t)) (hp : t.phase = .xfer (chunkFrame t) .subWrite)
    (hw : WriteRegsOk t) : step s = .next (resume .subWrite (exchange (chunkFrame t) t)) := by
  rw [step_frame h hp (decodeFrame_chunkFrame hw), spiFrame_spiWrite]
  rfl

/-- The registers of the next sub-write, or of the end. -/
theorem nextChunk_spec {s : State} (h : WriteRegsOk s) :
    (nextChunk s).seq.a.toNat = s.seq.a.toNat + s.seq.n.toNat
      ∧ (nextChunk s).seq.off.toNat = s.seq.off.toNat + s.seq.n.toNat
      ∧ (nextChunk s).seq.rem.toNat = s.seq.rem.toNat - s.seq.n.toNat ∧ (nextChunk s).seq.sr = s.seq.sr
      ∧ (s.seq.n.toNat = s.seq.rem.toNat → StartsPoll .done (nextChunk s))
      ∧ (s.seq.n.toNat ≠ s.seq.rem.toNat →
          StartsPoll .subWrite (nextChunk s)
            ∧ (nextChunk s).seq.n.toNat = min 256 (s.seq.rem.toNat - s.seq.n.toNat))
      ∧ KeepsResponse s (nextChunk s) ∧ (nextChunk s).rspCode = s.rspCode := by
  obtain ⟨ha, hoff, hrem⟩ := advance_writeRegs h
  by_cases hl : s.seq.n.toNat = s.seq.rem.toNat
  · rw [nextChunk_of_last h hl]
    exact ⟨ha, hoff, hrem, rfl, fun _ => ⟨⟨rfl, rfl⟩, rfl⟩, fun hne => absurd hl hne, ⟨rfl, rfl⟩, rfl⟩
  · rw [nextChunk_of_more h hl]
    exact ⟨ha, hoff, hrem, rfl, fun heq => absurd heq hl,
      fun _ => ⟨⟨⟨rfl, rfl⟩, rfl⟩, setChunk_n (advance s) (Nat.min_le_left _ _)⟩, ⟨rfl, rfl⟩, rfl⟩

theorem Inv.writeRegsOk {s : State} {tx : List Byte} (h : Inv s) (hp : s.phase = .xfer tx .subWrite) :
    WriteRegsOk s := by
  have hphase := h.phaseOk
  simp only [PhaseOk, hp] at hphase
  exact hphase.2

/-- Settles O34: `nextChunk_spec`, after the transaction of the sub-write's frame. -/
theorem subWriteAdvances : Obligations.SubWriteAdvances := by
  intro s t h hs hp
  obtain ⟨ts, n, rfl⟩ := takeTurn_eq h
  have hw : WriteRegsOk s := hs.writeRegsOk hp
  refine ⟨_, step_subWrite h hp hw, resume_issues _ .subWrite _, ?_⟩
  obtain ⟨ha, hoff, hrem, hsr, hlast, hmore, hresp, hcode⟩ :=
    nextChunk_spec (s := exchange (chunkFrame s) { s with sched := ts, fresh := n }) hw
  unfold KeepsPorts KeepsArray KeepsProtection
  rw [resume_cmd, resume_holdN, resume_wpN, resume_st, resume_dev]
  exact ⟨ha, hoff, hrem, hsr, hlast, hmore, ⟨rfl, rfl, rfl⟩, rfl, hresp, hcode, exchange_keepsArray _ _,
    exchange_keepsProtection _ _⟩

/-! WRITE's first step (rule R520). -/

section
variable {addr : Word32} {data : List Byte} (h : addr.toNat + data.length ≤ addrLimit)
include h

theorem firstRegs_seq (s : State) :
    (firstRegs addr data s).seq.a.toNat = addr.toNat ∧ (firstRegs addr data s).seq.off.toNat = 0
      ∧ (firstRegs addr data s).seq.rem.toNat = data.length
      ∧ (data ≠ [] → (firstRegs addr data s).seq.n.toNat = firstSize addr data)
      ∧ (firstRegs addr data s).seq.sr = s.seq.sr := by
  obtain ⟨ha, hrem⟩ := loadWrite_seq h s
  unfold firstRegs
  split
  · exact ⟨ha, rfl, hrem, fun hne => absurd ‹_› hne, rfl⟩
  · have hsize : firstSize addr data ≤ pageSize := (Nat.min_le_left _ _).trans (Nat.sub_le _ _)
    exact ⟨ha, rfl, hrem, fun _ => setChunk_n _ hsize, rfl⟩

theorem firstRegs_chunkFrame (hne : data ≠ []) (s : State) :
    chunkFrame (firstRegs addr data s) = encWrite (addr.setWidth 24) (data.take (firstSize addr data)) := by
  obtain ⟨ha, hoff, -, hn, -⟩ := firstRegs_seq h s
  have haddr : (firstRegs addr data s).seq.a.setWidth 24 = addr.setWidth 24 := by
    apply BitVec.eq_of_toNat_eq
    simp only [addrLimit] at h
    rw [BitVec.toNat_setWidth, BitVec.toNat_setWidth, ha]
  rw [chunkFrame, chunkData, haddr, hoff, hn hne, firstRegs_cmd, List.drop_zero]

end

theorem exec_cmdWrite_of_inRange {s : State} {addr : Word32} {data : List Byte} (hst : s.st = .ready)
    (hin : inRange (intAddr addr) data.length = true) :
    exec (.cmdWrite addr data) s = .next (resume (.poll (firstPollEnd data))
      (exchange (encRdsr s.params) (startPoll (firstPollEnd data) (firstRegs addr data s)))) := by
  simp only [exec, execCmdWrite, whenReady_ready hst, hin, if_true]
  rw [issueAtPhase_startWrite (toNat_add_le_of_inRange hin)]

/-- Settles O33: WRITE's first step is its first poll's reading, from the registers of `firstRegs_seq`. -/
theorem writeBeginsWithPoll : Obligations.WriteBeginsWithPoll := by
  intro s addr data hst h0 h1 n
  have hin := inRange_eq_true h0 h1
  have hle := toNat_add_le_of_inRange hin
  refine ⟨_, exec_cmdWrite_of_inRange hst hin, ?_⟩
  generalize he : firstPollEnd data = e
  generalize hx : exchange (encRdsr s.params) (startPoll e (firstRegs addr data s)) = x
  have hissue : Issues (encRdsr s.params) s (resume (.poll e) x) := by
    have hpoll := resume_issues (encRdsr s.params) (.poll e) (startPoll e (firstRegs addr data s))
    rwa [hx, Issues, startPoll_trace, firstRegs_trace] at hpoll
  have hseq : x.seq = { (firstRegs addr data s).seq with polls := 0 } := by rw [← hx]; rfl
  have hparams : x.params = s.params := by rw [← hx]; simp
  obtain ⟨ha, hoff, hrem, hn, hsr⟩ := firstRegs_seq hle s
  refine ⟨hissue, ?_, ?_⟩
  · rw [resume_dev, ← hx]; simp
  rw [resume_rx]
  refine ⟨fun hwip hnil => ?_, fun hwip hne => ?_, fun hwip hlimit => ?_, fun hwip hlimit => ?_, fun hrun => ?_, ?_⟩
  · exact (pollAnswer_not_wip_spec e hwip).1 (by rw [← he, firstPollEnd, if_pos hnil])
  · obtain ⟨hstands, hseq'⟩ := (pollAnswer_not_wip_spec e hwip).2 (by rw [← he, firstPollEnd, if_neg hne])
    have hframe : chunkFrame x = encWrite (addr.setWidth 24) (data.take n) := by
      rw [← hx]; exact firstRegs_chunkFrame hle hne s
    exact ⟨hframe ▸ hstands, by rw [resume, hseq', hseq]⟩
  · obtain ⟨-, -, htimeout⟩ := pollAnswer_wip_spec e hwip
    obtain ⟨l, hl, hl1⟩ := hlimit
    exact htimeout l (by rw [hparams, hl]) (by rw [hseq]; exact hl1)
  · obtain ⟨hnone, hbelow, -⟩ := pollAnswer_wip_spec e hwip
    have hsleep : e = if data = [] then .done else .subWrite := he.symm
    rcases hlimit with hl | ⟨l, hl, hl2⟩
    · obtain ⟨hp, hb, hs⟩ := hnone (by rw [hparams, hl])
      exact ⟨hb, hp.trans (congrArg _ hsleep), by rw [resume, hs, hseq, if_pos hl]⟩
    · obtain ⟨hp, hb, hs⟩ := hbelow l (by rw [hparams, hl]) (by rw [hseq]; exact hl2)
      exact ⟨hb, hp.trans (congrArg _ hsleep), by rw [resume, hs, hseq, hl]; rfl⟩
  · obtain ⟨ph, k, hk⟩ := pollAnswer_running (e := e) hrun
    have hresp : x.rspCode = s.rspCode ∧ KeepsResponse s x := by rw [← hx]; simp [KeepsResponse]
    rw [resume, hk]
    simp only [hseq]
    exact ⟨ha, hoff, hrem, hn, hsr, hresp⟩
  · unfold KeepsEnvironment
    rw [resume_cmd, resume_holdN, resume_wpN, resume_st, resume_params, resume_inputs, resume_sched, ← hx]
    simp

end Sys2Proof.Machine
end

section
/-! PROOFS. 42_read_write.md section 3, rule R526: the chunks of a WRITE by the page boundaries alone. -/

namespace Sys2Proof.Machine

/-- More fuel than bytes changes nothing: every chunk takes at least one byte. -/
theorem chunksFrom_eq_of_le {f g a k : Nat} (hf : k ≤ f) (hg : k ≤ g) : chunksFrom f a k = chunksFrom g a k := by
  induction f generalizing g a k with
  | zero =>
    obtain rfl := Nat.le_zero.mp hf
    cases g <;> simp [chunksFrom]
  | succ f ih =>
    cases g with
    | zero =>
      obtain rfl := Nat.le_zero.mp hg
      simp [chunksFrom]
    | succ g =>
      by_cases hk : k = 0
      · simp [chunksFrom, hk]
      · have hoff : pageOff a < pageSize := Nat.mod_lt a (by decide)
        simp only [chunksFrom, if_neg hk]
        rw [ih (g := g) (by omega) (by omega)]

/-- The first chunk reaches the next page boundary or the payload's end, and the others follow it. -/
theorem chunks_of_pos {a k : Nat} (hk : k ≠ 0) :
    chunks a k = (a, min (pageSize - pageOff a) k)
      :: chunks (a + min (pageSize - pageOff a) k) (k - min (pageSize - pageOff a) k) := by
  obtain ⟨k, rfl⟩ := Nat.exists_eq_succ_of_ne_zero hk
  have hoff : pageOff a < pageSize := Nat.mod_lt a (by decide)
  simp only [chunks, chunksFrom, if_neg hk]
  rw [chunksFrom_eq_of_le (f := k) (by omega) le_rfl]

@[simp] theorem chunks_zero (a : Nat) : chunks a 0 = [] := rfl

/-- Each chunk is 1 to 256 bytes of one page, inside the payload's range. -/
theorem chunk_bounds {a k : Nat} {c : Nat × Nat} (hc : c ∈ chunks a k) :
    1 ≤ c.2 ∧ c.2 ≤ 256 ∧ a ≤ c.1 ∧ c.1 + c.2 ≤ a + k ∧ c.1 / 256 = (c.1 + c.2 - 1) / 256 := by
  induction k using Nat.strong_induction_on generalizing a with
  | _ k ih =>
    by_cases hk : k = 0
    · simp [hk] at hc
    · rw [chunks_of_pos hk] at hc
      have hpage : pageOff a = a % 256 ∧ pageSize = 256 := ⟨rfl, rfl⟩
      rcases List.mem_cons.mp hc with rfl | hc
      · simp only
        omega
      · obtain ⟨h1, h256, hlo, hhi, hp⟩ := ih _ (by omega) hc
        exact ⟨h1, h256, by omega, by omega, hp⟩

/-- The pieces of the payload its chunks carry make it up again. -/
theorem chunks_flatMap_payload (a : Nat) (data : List Byte) :
    ((chunks a data.length).flatMap fun c => (data.drop (c.1 - a)).take c.2) = data := by
  induction hlen : data.length using Nat.strong_induction_on generalizing a data with
  | _ k ih =>
    by_cases hk : k = 0
    · simp [hk, List.length_eq_zero_iff.mp (hlen.trans hk)]
    · rw [chunks_of_pos hk]
      generalize hn : min (pageSize - pageOff a) k = n
      have hpos : 1 ≤ n := by
        have hoff : pageOff a < pageSize := Nat.mod_lt a (by decide)
        omega
      have hrest : ((chunks (a + n) (k - n)).flatMap fun c => (data.drop (c.1 - a)).take c.2) = data.drop n := by
        rw [← ih (k - n) (by omega) (a + n) (data.drop n) (by rw [List.length_drop, hlen])]
        refine List.flatMap_congr fun c hc => ?_
        obtain ⟨-, -, hlo, -⟩ := chunk_bounds hc
        rw [List.drop_drop, show n + (c.1 - (a + n)) = c.1 - a by omega]
      rw [List.flatMap_cons, hrest, Nat.sub_self, List.drop_zero, List.take_append_drop]

/-- Each chunk begins where the one before it ends. -/
theorem chunks_consecutive {a k j : Nat} (hj : j + 1 < (chunks a k).length) :
    ((chunks a k).getD (j + 1) (0, 0)).1 = ((chunks a k).getD j (0, 0)).1 + ((chunks a k).getD j (0, 0)).2 := by
  induction j generalizing a k with
  | zero =>
    by_cases hk : k = 0
    · simp [hk] at hj
    · rw [chunks_of_pos hk] at hj ⊢
      generalize hn : min (pageSize - pageOff a) k = n at hj ⊢
      by_cases hk' : k - n = 0
      · simp [hk'] at hj
      · rw [chunks_of_pos hk']
        rfl
  | succ j ih =>
    by_cases hk : k = 0
    · simp [hk] at hj
    · rw [chunks_of_pos hk] at hj ⊢
      simp only [List.getD_cons_succ]
      exact ih (by simpa using hj)

/-- One chunk for each page the payload touches. -/
theorem chunks_length {a k : Nat} (hk : k ≠ 0) : (chunks a k).length = (a + k - 1) / 256 - a / 256 + 1 := by
  induction k using Nat.strong_induction_on generalizing a with
  | _ k ih =>
    rw [chunks_of_pos hk, List.length_cons]
    have hpage : pageOff a = a % 256 ∧ pageSize = 256 := ⟨rfl, rfl⟩
    by_cases hk' : k - min (pageSize - pageOff a) k = 0
    · rw [hk', chunks_zero, List.length_nil]
      omega
    · rw [ih _ (by omega) hk']
      omega

/-- Settles O53: the four facts above. -/
theorem chunksPartitionPayload : Obligations.ChunksPartitionPayload := by
  intro a data _ cs
  refine ⟨fun c hc => chunk_bounds hc, chunks_flatMap_payload a data, fun j hj => chunks_consecutive hj, ?_⟩
  split
  · rename_i hnil
    simp [cs, hnil]
  · exact chunks_length (mt List.length_eq_zero_iff.mp ‹_›)

end Sys2Proof.Machine
end

section
/-! PROOFS. 42_read_write.md section 3 and 70_reset_and_hazards.md section 3: a WRITE run to its end. A round is a
sub-write, the end of the cycle it started, if any, and the poll that follows; a WRITE is one round for each chunk. -/

namespace Sys2Proof.Machine

/-! Runs. -/

theorem run_succ {s t : State} (h : step s = .next t) (k : Nat) :
    Host.Core.run core (k + 1) s = Host.Core.run core k t := by
  have hcore : core.step s = .next t := h
  simp only [Host.Core.run, hcore]

theorem sentFrames_exchange (tx : List Byte) (s : State) : sentFrames (exchange tx s) = sentFrames s ++ [tx] := by
  simp [sentFrames]

theorem WriteRegsOk.one_le_n {s : State} (h : WriteRegsOk s) : 1 ≤ s.seq.n.toNat := by
  obtain ⟨-, -, -, hpos, -⟩ := h
  exact hpos

theorem WriteRegsOk.n_le_rem {s : State} (h : WriteRegsOk s) : s.seq.n.toNat ≤ s.seq.rem.toNat := by
  obtain ⟨-, -, -, -, hn, -⟩ := h
  exact hn

/-! Where a WRITE stands between its rounds. -/

/-- The WRITE of `data` at `a0` stands before a sub-write, with `OFF` bytes of it already sent. -/
structure AtSubWrite (a0 : Nat) (data : List Byte) (s : State) : Prop where
  phase : s.phase = .xfer (chunkFrame s) .subWrite
  regs : WriteRegsOk s
  payload : s.cmd.data = data
  addr : s.seq.a.toNat = a0 + s.seq.off.toNat

theorem AtSubWrite.of_environment {a0 : Nat} {data : List Byte} {s : State} (h : AtSubWrite a0 data s)
    (ts : List Turn) : AtSubWrite a0 data { s with sched := ts } :=
  ⟨h.phase, h.regs, h.payload, h.addr⟩

section
variable {a0 : Nat} {data : List Byte} {s : State} (h : AtSubWrite a0 data s)
include h

/-- `N` is the size rule R526 gives the next chunk, so the chunks left are this one and those after it. -/
theorem AtSubWrite.chunks_eq :
    chunks s.seq.a.toNat s.seq.rem.toNat =
      (s.seq.a.toNat, s.seq.n.toNat)
        :: chunks (s.seq.a.toNat + s.seq.n.toNat) (s.seq.rem.toNat - s.seq.n.toNat) := by
  obtain ⟨-, -, -, hpos, hn, hpage, hstop⟩ := h.regs
  have hsize : min (pageSize - pageOff s.seq.a.toNat) s.seq.rem.toNat = s.seq.n.toNat := by
    simp only [pageOff, pageSize] at *
    omega
  rw [chunks_of_pos (by omega), hsize]

/-- The bytes the sub-write carries. -/
theorem AtSubWrite.chunkData_eq : chunkData s = (data.drop s.seq.off.toNat).take s.seq.n.toNat := by
  rw [chunkData, h.payload]

theorem AtSubWrite.chunkFrame_eq : chunkFrame s = subWriteFrame a0 data (s.seq.a.toNat, s.seq.n.toNat) := by
  have haddr : s.seq.a.setWidth 24 = BitVec.ofNat 24 s.seq.a.toNat := by
    apply BitVec.eq_of_toNat_eq
    rw [BitVec.toNat_setWidth, BitVec.toNat_ofNat]
  have hoff : s.seq.a.toNat - a0 = s.seq.off.toNat := by rw [h.addr, Nat.add_sub_cancel_left]
  rw [chunkFrame, subWriteFrame, haddr, h.chunkData_eq, hoff]

/-- The sub-write's address is one of the array. -/
theorem AtSubWrite.addr_lt : s.seq.a.toNat < addrLimit := by
  obtain ⟨-, -, hend, hpos, hn, -, -⟩ := h.regs
  omega

end

/-! One round. -/

/-- A round from `s` to `u`: two frames, and the command at its end or before the next sub-write. -/
structure Round (a0 : Nat) (data : List Byte) (s u : State) : Prop where
  params : u.params = s.params
  st : u.st = s.st
  sent : sentFrames u = sentFrames s ++ [subWriteFrame a0 data (s.seq.a.toNat, s.seq.n.toNat), encRdsr s.params]
  last : s.seq.n.toNat = s.seq.rem.toNat → Ends .ok u
  more : s.seq.n.toNat ≠ s.seq.rem.toNat →
    AtSubWrite a0 data u ∧ u.seq.a.toNat = s.seq.a.toNat + s.seq.n.toNat
      ∧ u.seq.rem.toNat = s.seq.rem.toNat - s.seq.n.toNat

/-- Between the two frames of a round the WRITE stands before the poll's RDSR. -/
structure AfterSubWrite (a0 : Nat) (data : List Byte) (s v : State) : Prop where
  params : v.params = s.params
  st : v.st = s.st
  sent : sentFrames v = sentFrames s ++ [subWriteFrame a0 data (s.seq.a.toNat, s.seq.n.toNat)]
  last : s.seq.n.toNat = s.seq.rem.toNat → v.phase = .xfer (encRdsr v.params) (.poll .done)
  more : s.seq.n.toNat ≠ s.seq.rem.toNat →
    v.phase = .xfer (encRdsr v.params) (.poll .subWrite) ∧ WriteRegsOk v ∧ v.cmd.data = data
      ∧ v.seq.a.toNat = a0 + v.seq.off.toNat ∧ v.seq.a.toNat = s.seq.a.toNat + s.seq.n.toNat
      ∧ v.seq.rem.toNat = s.seq.rem.toNat - s.seq.n.toNat

/-- It says nothing of the device or the environment, so DevComplete keeps it. -/
theorem AfterSubWrite.of_device {a0 : Nat} {data : List Byte} {s v : State} (h : AfterSubWrite a0 data s v)
    (ts : List Turn) (d : Device) : AfterSubWrite a0 data s { v with sched := ts, dev := d } :=
  ⟨h.params, h.st, h.sent, h.last, h.more⟩

/-- The transaction of the sub-write's frame and what the sequencer makes of it. -/
theorem AtSubWrite.afterSubWrite {a0 : Nat} {data : List Byte} {s : State} (h : AtSubWrite a0 data s) :
    AfterSubWrite a0 data s (resume .subWrite (exchange (chunkFrame s) s)) := by
  refine ⟨resume_params _ _, resume_st _ _, ?_, fun hl => ?_, fun hl => ?_⟩
  · rw [← h.chunkFrame_eq, sentFrames, resume_trace]
    exact sentFrames_exchange _ _
  · rw [resume, nextChunk_of_last (s := exchange (chunkFrame s) s) h.regs hl]
    rfl
  · obtain ⟨ha, hoff, hrem⟩ := advance_writeRegs h.regs
    have haddr : (advance s).seq.a.toNat = a0 + (advance s).seq.off.toNat := by rw [ha, hoff, h.addr, Nat.add_assoc]
    rw [resume, nextChunk_of_more (s := exchange (chunkFrame s) s) h.regs hl]
    exact ⟨rfl, setChunk_advance_writeRegsOk h.regs hl, h.payload, haddr, ha, hrem⟩

/-- The block's turn before a sub-write issues its frame and stands before the poll. -/
theorem afterSubWrite_of_step {a0 : Nat} {data : List Byte} {s : State} {ts : List Turn} (h : AtSubWrite a0 data s)
    (hturn : takeTurn s = (.block, { s with sched := ts })) :
    ∃ v, step s = .next v ∧ AfterSubWrite a0 data s v
      ∧ v.dev = (exchange (chunkFrame s) { s with sched := ts }).dev ∧ v.sched = ts := by
  have hafter := (h.of_environment ts).afterSubWrite
  exact ⟨_, step_subWrite hturn h.phase h.regs,
    ⟨hafter.params, hafter.st, hafter.sent, hafter.last, hafter.more⟩, resume_dev _ _, resume_sched _ _⟩

/-- The block's turn before the poll of a device that answers and is idle ends the round. -/
theorem round_of_poll {a0 : Nat} {data : List Byte} {s v : State} {ts : List Turn} (h : AfterSubWrite a0 data s v)
    (hd : v.dev.dpd = false) (hw : v.dev.wip = false) (hturn : takeTurn v = (.block, { v with sched := ts })) :
    ∃ u, step v = .next u ∧ Round a0 data s u ∧ u.dev = v.dev ∧ u.sched = ts := by
  have hsent : sentFrames (exchange (encRdsr v.params) { v with sched := ts }) = sentFrames s
      ++ [subWriteFrame a0 data (s.seq.a.toNat, s.seq.n.toNat), encRdsr s.params] := by
    rw [sentFrames_exchange, show sentFrames { v with sched := ts } = _ from h.sent, h.params, List.append_assoc]
    rfl
  have hpoll (e : PollEnd) : resume (.poll e) (exchange (encRdsr v.params) { v with sched := ts }) =
      pollReturn e (exchange (encRdsr v.params) { v with sched := ts }) :=
    pollAnswer_of_idle (s := { v with sched := ts }) hd hw
  by_cases hl : s.seq.n.toNat = s.seq.rem.toNat
  · refine ⟨_, (step_poll hturn (h.last hl)).trans (congrArg _ (hpoll .done)),
      ⟨h.params, h.st, hsent, fun _ => ⟨rfl, rfl, rfl⟩, fun hne => absurd hl hne⟩, exchange_rdsr_dev _ _, rfl⟩
  · obtain ⟨hphase, hregs, hpayload, haddr, ha, hrem⟩ := h.more hl
    exact ⟨_, (step_poll hturn hphase).trans (congrArg _ (hpoll .subWrite)),
      ⟨h.params, h.st, hsent, fun heq => absurd heq hl, fun _ => ⟨⟨rfl, hregs, hpayload, haddr⟩, ha, hrem⟩⟩,
      exchange_rdsr_dev _ _, rfl⟩

/-! A round the device ignores, and one it takes. -/

section
variable {a0 : Nat} {data : List Byte} {s : State}

/-- With the latch clear the device ignores the sub-write: a round of two steps that leaves the device alone. -/
theorem round_of_latch_clear (h : AtSubWrite a0 data s) (hq : QuietDevice false s.dev) (hsched : s.sched = []) :
    ∃ u, (∀ k, Host.Core.run core (k + 2) s = Host.Core.run core k u) ∧ Round a0 data s u ∧ u.dev = s.dev
      ∧ u.sched = [] := by
  obtain ⟨hdpd, hwip, hpending, hwel⟩ := hq
  have hturn : takeTurn s = (.block, { s with sched := [] }) := hsched ▸ takeTurn_quiet hsched hpending
  obtain ⟨v, hv, hafter, hdev, hvs⟩ := afterSubWrite_of_step h hturn
  have hignored : v.dev = s.dev := by
    rw [hdev]
    refine (exchange_encWrite_dev _ _ { s with sched := [] }).2 ?_
    rintro ⟨-, -, hset, -⟩
    exact Bool.false_ne_true (hwel.symm.trans hset)
  have hturn' : takeTurn v = (.block, { v with sched := [] }) :=
    hvs ▸ takeTurn_quiet hvs (by rw [hignored, hpending])
  obtain ⟨u, hu, hround, hudev, hus⟩ := round_of_poll hafter (by rw [hignored, hdpd]) (by rw [hignored, hwip]) hturn'
  exact ⟨u, fun k => by rw [run_succ hv, run_succ hu], hround, hudev.trans hignored, hus⟩

/-- A device with the latch set and nothing protected takes the sub-write. -/
theorem exchange_chunkFrame_accepted {t : State} (h : AtSubWrite a0 data t) (hq : QuietDevice true t.dev)
    (hbp : t.dev.bp = 0) :
    (exchange (chunkFrame t) t).dev = startCycle (.write t.seq.a.toNat (chunkData t)) t.dev := by
  obtain ⟨hdpd, hwip, -, hwel⟩ := hq
  have hmod : (t.seq.a.setWidth 24).toNat % addrLimit = t.seq.a.toNat := by
    have hlt := h.addr_lt
    simp only [addrLimit] at hlt ⊢
    rw [BitVec.toNat_setWidth]
    omega
  have hne : chunkData t ≠ [] := by
    rw [← List.length_pos_iff, chunkData_length h.regs]
    exact h.regs.one_le_n
  have hdev := (exchange_encWrite_dev (t.seq.a.setWidth 24) (chunkData t) t).1
  rw [hmod] at hdev
  refine hdev ⟨⟨fun hd => ?_, fun hw => ?_⟩, hne, hwel, by rw [hbp]; rfl⟩
  · exact absurd (hdpd.symm.trans hd) Bool.false_ne_true
  · exact absurd (hwip.symm.trans hw) Bool.false_ne_true

/-- The device after a sub-write it took and the end of the cycle. -/
def writtenDevice (s : State) : Device :=
  cycleEffect s.params (.write s.seq.a.toNat (chunkData s)) s.dev

/-- With the latch set and nothing protected, under S0: a round of three steps that writes the chunk. -/
theorem round_of_accepted (h : AtSubWrite a0 data s) (hq : QuietDevice true s.dev) (hbp : s.dev.bp = 0)
    {ts : List Turn} (hsched : s.sched = .block :: .device :: .block :: ts) :
    ∃ u, (∀ k, Host.Core.run core (k + 3) s = Host.Core.run core k u) ∧ Round a0 data s u ∧ u.dev = writtenDevice s
      ∧ u.sched = ts := by
  obtain ⟨v, hv, hafter, hdev, hvs⟩ := afterSubWrite_of_step h (takeTurn_block hsched)
  have hstart : v.dev = startCycle (.write s.seq.a.toNat (chunkData s)) s.dev :=
    hdev.trans (exchange_chunkFrame_accepted (h.of_environment (.device :: .block :: ts)) hq hbp)
  have hpending : v.dev.pending = some (.write s.seq.a.toNat (chunkData s)) := by rw [hstart]; rfl
  have hturn : takeTurn v = (.device, { v with sched := .block :: ts }) := by
    simp [takeTurn, hvs, enabledTurn, hpending]
  have hdone : cycleEffect v.params (.write s.seq.a.toNat (chunkData s)) v.dev = writtenDevice s := by
    rw [hstart, hafter.params]; rfl
  have hw : step v = .next { v with sched := .block :: ts, dev := writtenDevice s } := by
    rw [step_device hturn hpending (decide_eq_true h.addr_lt), hdone]
  obtain ⟨u, hu, hround, hudev, hus⟩ := round_of_poll (hafter.of_device (.block :: ts) (writtenDevice s)) hq.1 rfl
    (takeTurn_block rfl)
  exact ⟨u, fun k => by rw [run_succ hv, run_succ hw, run_succ hu], hround, hudev, hus⟩

end

/-! The array after an accepted sub-write. -/

section
variable {a0 : Nat} {data : List Byte} {s : State} (h : AtSubWrite a0 data s)
include h

/-- The page of a sub-write lies in the array. -/
theorem AtSubWrite.page_inArray : pageBase s.seq.a.toNat + pageSize ≤ addrLimit := by
  have hlt := h.addr_lt
  simp only [pageBase, pageOff, pageSize, addrLimit] at *
  omega

/-- The chunk's bytes stand at their addresses, without wrapping, and no other byte has changed. -/
theorem AtSubWrite.read_writtenDevice (hm : Memory.wf s.dev.arr) (x : Nat) :
    Memory.read (writtenDevice s).arr x =
      if s.seq.a.toNat ≤ x ∧ x < s.seq.a.toNat + s.seq.n.toNat then data.getD (x - a0) 0
      else Memory.read s.dev.arr x := by
  have hlen := chunkData_length h.regs
  obtain ⟨hoff, -, -, -, hn, hpage, -⟩ := h.regs
  have hbase : pageBase s.seq.a.toNat + pageOff s.seq.a.toNat = s.seq.a.toNat := Nat.sub_add_cancel (Nat.mod_le _ _)
  have hread := Memory.read_writePage (x := x) hm h.page_inArray (hlen.symm ▸ hpage)
  rw [hbase, hlen] at hread
  refine hread.trans ?_
  split
  · rw [h.chunkData_eq, List.getD_eq_getElem?_getD, List.getElem?_take_of_lt (by omega), List.getElem?_drop,
      ← List.getD_eq_getElem?_getD, h.addr, show s.seq.off.toNat + (x - (a0 + s.seq.off.toNat)) = x - a0 by
        have := h.addr; omega]
  · rfl

theorem AtSubWrite.writtenDevice_wf (hm : Memory.wf s.dev.arr) : Memory.wf (writtenDevice s).arr :=
  Memory.writePage_wf hm h.page_inArray

end

/-- After the cycle the device is quiet again, its latch as DEV_WEL_AUTOCLEAR has it. -/
theorem quietDevice_writtenDevice {s : State} {b : Bool} (hq : QuietDevice true s.dev)
    (hb : s.params.devWelAutoclear = !b) : QuietDevice b (writtenDevice s) := by
  obtain ⟨hdpd, -, -, hwel⟩ := hq
  refine ⟨hdpd, rfl, rfl, ?_⟩
  change (s.dev.wel && !s.params.devWelAutoclear) = b
  simp [hwel, hb]

/-! All rounds. -/

/-- The frames of a WRITE's chunks with the poll after each. -/
def roundFrames (p : Params) (a0 : Nat) (data : List Byte) (cs : List (Nat × Nat)) : List (List Byte) :=
  cs.flatMap fun c => [subWriteFrame a0 data c, encRdsr p]

theorem roundFrames_cons (p : Params) (a0 : Nat) (data : List Byte) (c : Nat × Nat) (cs : List (Nat × Nat)) :
    roundFrames p a0 data (c :: cs) = [subWriteFrame a0 data c, encRdsr p] ++ roundFrames p a0 data cs := rfl

/-- The chunks a WRITE has left. -/
def chunksLeft (s : State) : List (Nat × Nat) := chunks s.seq.a.toNat s.seq.rem.toNat

/-- A run of `k` steps that ends the WRITE well, having issued the frames of the chunks left. -/
structure WritesRest (a0 : Nat) (data : List Byte) (k : Nat) (s u : State) : Prop where
  run : Host.Core.run core k s = .next u
  ends : Ends .ok u
  sent : sentFrames u = sentFrames s ++ roundFrames s.params a0 data (chunksLeft s)
  st : u.st = s.st

/-- A round that is not the last leaves the chunks after its own. -/
theorem Round.chunksLeft_eq {a0 : Nat} {data : List Byte} {s v : State} (hround : Round a0 data s v)
    (hl : s.seq.n.toNat ≠ s.seq.rem.toNat) :
    chunksLeft v = chunks (s.seq.a.toNat + s.seq.n.toNat) (s.seq.rem.toNat - s.seq.n.toNat) := by
  obtain ⟨-, ha, hrem⟩ := hround.more hl
  rw [chunksLeft, ha, hrem]

theorem chunksLeft_of_more {a0 : Nat} {data : List Byte} {s v : State} (h : AtSubWrite a0 data s)
    (hround : Round a0 data s v) (hl : s.seq.n.toNat ≠ s.seq.rem.toNat) :
    chunksLeft s = (s.seq.a.toNat, s.seq.n.toNat) :: chunksLeft v := by
  rw [chunksLeft, h.chunks_eq, hround.chunksLeft_eq hl]

/-- Before the last sub-write one chunk is left. -/
theorem chunksLeft_of_last {a0 : Nat} {data : List Byte} {s : State} (h : AtSubWrite a0 data s)
    (hl : s.seq.n.toNat = s.seq.rem.toNat) : chunksLeft s = [(s.seq.a.toNat, s.seq.n.toNat)] := by
  rw [chunksLeft, h.chunks_eq, hl, Nat.sub_self, chunks_zero]

section
variable {a0 : Nat} {data : List Byte} {s v : State} {r : Nat} (h : AtSubWrite a0 data s)
  (hrun : ∀ k, Host.Core.run core (k + r) s = Host.Core.run core k v) (hround : Round a0 data s v)
include h hrun hround

/-- The round of the payload's last chunk ends the WRITE. -/
theorem writesRest_of_last (hl : s.seq.n.toNat = s.seq.rem.toNat) : WritesRest a0 data r s v := by
  exact ⟨by simpa [Host.Core.run] using hrun 0, hround.last hl, by rw [hround.sent, chunksLeft_of_last h hl]; rfl,
    hround.st⟩

/-- A round and a run to the end from there. -/
theorem writesRest_of_more {k : Nat} {u : State} (hl : s.seq.n.toNat ≠ s.seq.rem.toNat)
    (hrest : WritesRest a0 data k v u) : WritesRest a0 data (k + r) s u := by
  refine ⟨(hrun k).trans hrest.run, hrest.ends, ?_, hrest.st.trans hround.st⟩
  rw [hrest.sent, hround.sent, hround.params, chunksLeft_of_more h hround hl, roundFrames_cons, List.append_assoc]

end

/-- With the latch clear the WRITE runs to its end in two steps a chunk and leaves the device alone. -/
theorem writesRest_of_latch_clear {a0 : Nat} {data : List Byte} {s : State} (h : AtSubWrite a0 data s)
    (hq : QuietDevice false s.dev) (hsched : s.sched = []) :
    ∃ u, WritesRest a0 data (2 * (chunksLeft s).length) s u ∧ u.dev = s.dev := by
  induction hk : s.seq.rem.toNat using Nat.strong_induction_on generalizing s with
  | _ k ih =>
    obtain ⟨v, hrun, hround, hdev, hvs⟩ := round_of_latch_clear h hq hsched
    by_cases hl : s.seq.n.toNat = s.seq.rem.toNat
    · rw [chunksLeft_of_last h hl]
      exact ⟨v, writesRest_of_last h hrun hround hl, hdev⟩
    · obtain ⟨hv, -, hrem⟩ := hround.more hl
      have hpos := h.regs.one_le_n
      have hle := h.regs.n_le_rem
      obtain ⟨u, hu, hudev⟩ := ih _ (by omega) hv (by rw [hdev]; exact hq) hvs rfl
      refine ⟨u, ?_, hudev.trans hdev⟩
      rw [chunksLeft_of_more h hround hl, List.length_cons, Nat.mul_succ]
      exact writesRest_of_more h hrun hround hl hu

/-- Under S0, with a latch that stays set, the WRITE runs to its end in three steps a chunk and all bytes left land. -/
theorem writesRest_of_accepted {a0 : Nat} {data : List Byte} {s : State} (h : AtSubWrite a0 data s)
    (hq : QuietDevice true s.dev) (hbp : s.dev.bp = 0) (hm : Memory.wf s.dev.arr)
    (hauto : s.params.devWelAutoclear = false) (hsched : s.sched = scheduleS0 (chunksLeft s).length) :
    ∃ u, WritesRest a0 data (3 * (chunksLeft s).length) s u ∧ QuietDevice true u.dev
      ∧ ∀ x, Memory.read u.dev.arr x =
          if s.seq.a.toNat ≤ x ∧ x < s.seq.a.toNat + s.seq.rem.toNat then data.getD (x - a0) 0
          else Memory.read s.dev.arr x := by
  induction hk : s.seq.rem.toNat using Nat.strong_induction_on generalizing s with
  | _ k ih =>
    rw [chunksLeft, h.chunks_eq] at hsched
    obtain ⟨v, hrun, hround, hdev, hvs⟩ := round_of_accepted h hq hbp
      (ts := scheduleS0 (chunks (s.seq.a.toNat + s.seq.n.toNat) (s.seq.rem.toNat - s.seq.n.toNat)).length) hsched
    have hread := h.read_writtenDevice hm
    have hvq : QuietDevice true v.dev := hdev ▸ quietDevice_writtenDevice hq hauto
    by_cases hl : s.seq.n.toNat = s.seq.rem.toNat
    · rw [chunksLeft_of_last h hl]
      refine ⟨v, writesRest_of_last h hrun hround hl, hvq, fun x => ?_⟩
      rw [hdev, hread, hl, hk]
    · obtain ⟨hv, ha, hrem⟩ := hround.more hl
      have hpos := h.regs.one_le_n
      have hle := h.regs.n_le_rem
      obtain ⟨u, hu, huq, huread⟩ := ih _ (by omega) hv hvq (by rw [hdev]; exact hbp)
        (by rw [hdev]; exact h.writtenDevice_wf hm) (by rw [hround.params, hauto])
        (by rw [hvs, hround.chunksLeft_eq hl]) rfl
      rw [chunksLeft_of_more h hround hl, List.length_cons, Nat.mul_succ]
      refine ⟨u, writesRest_of_more h hrun hround hl hu, huq, fun x => ?_⟩
      rw [huread, hdev, hread, ha, hrem]
      split
      · rw [if_pos (by omega)]
      · split
        · rw [if_pos (by omega)]
        · rw [if_neg (by omega)]

/-! From the command on. -/

/-- A WRITE has issued its first poll's RDSR to a quiet device: it has ended, or stands before its first chunk. -/
structure WriteStarted (addr : Word32) (data : List Byte) (s t : State) : Prop where
  sent : sentFrames t = sentFrames s ++ [encRdsr s.params]
  dev : t.dev = s.dev
  sched : t.sched = s.sched
  params : t.params = s.params
  st : t.st = s.st
  empty : data = [] → Ends .ok t
  regs : data ≠ [] → AtSubWrite addr.toNat data t ∧ t.seq.a.toNat = addr.toNat ∧ t.seq.rem.toNat = data.length
    ∧ t.seq.n.toNat = firstSize addr data

theorem exec_cmdWrite_started {s : State} {addr : Word32} {data : List Byte} (hst : s.st = .ready)
    (hin : inRange (intAddr addr) data.length = true) (hdpd : s.dev.dpd = false) (hwip : s.dev.wip = false) :
    ∃ t, exec (.cmdWrite addr data) s = .next t ∧ WriteStarted addr data s t := by
  have hle := toNat_add_le_of_inRange hin
  refine ⟨_, exec_cmdWrite_of_inRange hst hin, ?_, ?_, ?_, ?_, ?_, fun hnil => ?_, fun hne => ?_⟩
  · rw [sentFrames, resume_trace, ← sentFrames, sentFrames_exchange, sentFrames, startPoll_trace, firstRegs_trace]
    rfl
  · simp
  · simp
  · simp
  · simp
  all_goals
    rw [resume, pollAnswer_of_idle (by rw [startPoll_dev, firstRegs_dev, hdpd])
      (by rw [startPoll_dev, firstRegs_dev, hwip])]
  · rw [firstPollEnd, if_pos hnil]
    exact ⟨rfl, rfl, rfl⟩
  · obtain ⟨ha, hoff, hrem, hn, -⟩ := firstRegs_seq hle s
    have hpayload : (firstRegs addr data s).cmd.data = data := by rw [firstRegs_cmd]
    have haddr : (firstRegs addr data s).seq.a.toNat = addr.toNat + (firstRegs addr data s).seq.off.toNat := by
      rw [ha, hoff, Nat.add_zero]
    rw [firstPollEnd, if_neg hne]
    exact ⟨⟨rfl, firstRegs_writeRegsOk hle hne s, hpayload, haddr⟩, ha, hrem, hn hne⟩

section
variable {addr : Word32} {data : List Byte} {s t u : State} (hstart : WriteStarted addr data s t)
include hstart

theorem WriteStarted.chunksLeft_eq (hne : data ≠ []) : chunksLeft t = chunks addr.toNat data.length := by
  obtain ⟨-, ha, hrem, -⟩ := hstart.regs hne
  rw [chunksLeft, ha, hrem]

/-- The first poll's frame and those of every chunk are the WRITE's frames (rule R524). -/
theorem WriteStarted.sent_of_writesRest (hne : data ≠ []) {k : Nat} (h : WritesRest addr.toNat data k t u) :
    sentFrames u = sentFrames s ++ writeFrames s.params addr.toNat data := by
  rw [h.sent, hstart.sent, hstart.params, hstart.chunksLeft_eq hne, List.append_assoc]
  rfl

end

/-- Settles O54: every round is one the device ignores. -/
theorem writeIssuesChunksInOrder : Obligations.WriteIssuesChunksInOrder := by
  intro s addr data hst h0 h1 hq hsched
  obtain ⟨t, ht, hstart⟩ := exec_cmdWrite_started hst (inRange_eq_true h0 h1) hq.1 hq.2.1
  by_cases hnil : data = []
  · subst hnil
    exact ⟨t, t, ht, rfl, hstart.empty rfl, hstart.sent, fun a => by rw [hstart.dev]⟩
  · obtain ⟨hat, -⟩ := hstart.regs hnil
    obtain ⟨u, hu, hdev⟩ := writesRest_of_latch_clear hat (hstart.dev ▸ hq) (hstart.sched.trans hsched)
    exact ⟨t, u, ht, hstart.chunksLeft_eq hnil ▸ hu.run, hu.ends, hstart.sent_of_writesRest hnil hu,
      fun a => by rw [hdev, hstart.dev]⟩

/-- A READ of a range whose bytes are known returns them. -/
theorem exec_cmdRead_returns {s : State} {addr : Word32} {data : List Byte} (hst : s.st = .ready)
    (hin : inRange (intAddr addr) data.length = true) (hdpd : s.dev.dpd = false) (hwip : s.dev.wip = false)
    (hread : ∀ j, j < data.length → Memory.read s.dev.arr (addr.toNat + j) = data.getD j 0) :
    ∃ v, exec (.cmdRead addr (BitVec.ofNat 32 data.length)) s = .next v ∧ v.rspCode = .ok ∧ v.rspData = data := by
  have hle := toNat_add_le_of_inRange hin
  have hlen : (BitVec.ofNat 32 data.length).toNat = data.length := by
    simp only [addrLimit] at hle
    rw [BitVec.toNat_ofNat]
    omega
  have hlisten : Listens 0x03#8 s.dev :=
    ⟨fun hd => absurd (hdpd.symm.trans hd) Bool.false_ne_true, fun hw => absurd (hwip.symm.trans hw) Bool.false_ne_true⟩
  refine ⟨_, exec_cmdRead_of_inRange hst (by rw [hlen]; exact hin), rfl, ?_⟩
  rw [hlen]
  refine (exchange_encRead_inRange hle hlisten).trans (List.ext_getElem (by simp) fun j hj hj' => ?_)
  rw [List.getElem_map, List.getElem_range, hread j hj', List.getD_eq_getElem _ _ hj']

/-- Under S0 without auto-clear a WRITE lands, whatever its length. -/
theorem exec_cmdWrite_lands {s : State} {addr : Word32} {data : List Byte} (hst : s.st = .ready)
    (hin : inRange (intAddr addr) data.length = true) (hq : QuietDevice true s.dev) (hbp : s.dev.bp = 0)
    (hm : Memory.wf s.dev.arr) (hauto : s.params.devWelAutoclear = false)
    (hsched : s.sched = scheduleS0 (chunks addr.toNat data.length).length) :
    ∃ t u, exec (.cmdWrite addr data) s = .next t
      ∧ Host.Core.run core (3 * (chunks addr.toNat data.length).length) t = .next u ∧ Ends .ok u
      ∧ sentFrames u = sentFrames s ++ writeFrames s.params addr.toNat data
      ∧ (∀ x, Memory.read u.dev.arr x =
          if addr.toNat ≤ x ∧ x < addr.toNat + data.length then data.getD (x - addr.toNat) 0
          else Memory.read s.dev.arr x)
      ∧ u.st = s.st ∧ QuietDevice true u.dev := by
  obtain ⟨t, ht, hstart⟩ := exec_cmdWrite_started hst hin hq.1 hq.2.1
  by_cases hnil : data = []
  · subst hnil
    refine ⟨t, t, ht, rfl, hstart.empty rfl, hstart.sent, fun x => ?_, hstart.st, hstart.dev ▸ hq⟩
    rw [hstart.dev, if_neg (by simp)]
  · obtain ⟨hat, ha, hrem, -⟩ := hstart.regs hnil
    have hleft := hstart.chunksLeft_eq hnil
    obtain ⟨u, hu, huq, hread⟩ := writesRest_of_accepted hat (hstart.dev ▸ hq) (by rw [hstart.dev, hbp])
      (hstart.dev ▸ hm) (by rw [hstart.params, hauto]) (by rw [hstart.sched, hsched, hleft])
    rw [ha, hrem, hstart.dev] at hread
    exact ⟨t, u, ht, hleft ▸ hu.run, hu.ends, hstart.sent_of_writesRest hnil hu, hread, hu.st.trans hstart.st, huq⟩

/-- Settles O55: the WRITE lands, and the device it leaves answers the READ. -/
theorem writeThenReadReturnsPayload : Obligations.WriteThenReadReturnsPayload := by
  intro s addr data hst h0 h1 hq hbp hm hauto hsched
  have hin := inRange_eq_true h0 h1
  obtain ⟨t, u, ht, hrun, hend, hsent, hread, hust, huq⟩ := exec_cmdWrite_lands hst hin hq hbp hm hauto hsched
  obtain ⟨v, hv, hcode, hdata⟩ := exec_cmdRead_returns (hust.trans hst) hin huq.1 huq.2.1 fun j hj => by
    rw [hread, if_pos (by omega), Nat.add_sub_cancel_left]
  exact ⟨t, u, v, ht, hrun, hend, hsent, hread, hv, hcode, hdata⟩

/-- Settles O56: the first round is taken and clears the latch, so every other one is ignored. -/
theorem onlyFirstChunkLandsWithAutoclear : Obligations.OnlyFirstChunkLandsWithAutoclear := by
  intro s addr data hst h0 h1 hne hq hbp hm hauto hsched
  obtain ⟨t, ht, hstart⟩ := exec_cmdWrite_started hst (inRange_eq_true h0 h1) hq.1 hq.2.1
  obtain ⟨hat, ha, -, hn⟩ := hstart.regs hne
  have hleft := hstart.chunksLeft_eq hne
  have htq : QuietDevice true t.dev := hstart.dev ▸ hq
  obtain ⟨v, hrun, hround, hvdev, hvs⟩ := round_of_accepted hat htq (by rw [hstart.dev, hbp])
    (ts := []) (hstart.sched.trans hsched)
  have hvq : QuietDevice false v.dev :=
    hvdev ▸ quietDevice_writtenDevice htq (by rw [hstart.params, hauto, Bool.not_false])
  have hrest : ∃ u, WritesRest addr.toNat data (2 * (chunksLeft t).length + 1) t u ∧ u.dev = v.dev := by
    by_cases hl : t.seq.n.toNat = t.seq.rem.toNat
    · rw [chunksLeft_of_last hat hl]
      exact ⟨v, writesRest_of_last hat hrun hround hl, rfl⟩
    · obtain ⟨u, hu, hudev⟩ := writesRest_of_latch_clear (hround.more hl).1 hvq hvs
      rw [chunksLeft_of_more hat hround hl]
      exact ⟨u, writesRest_of_more hat hrun hround hl hu, hudev⟩
  obtain ⟨u, hu, hudev⟩ := hrest
  refine ⟨t, u, ht, hleft ▸ hu.run, hu.ends, hstart.sent_of_writesRest hne hu, ?_, fun x => ?_⟩
  · rw [hudev]
    exact hvq.2.2.2
  · rw [hudev, hvdev, hat.read_writtenDevice (hstart.dev ▸ hm), ha, hn, hstart.dev]
    rfl

end Sys2Proof.Machine
end
